-- ==== Sys2Proof/Word.lean ====
section
/-! DEFINITION. The words of the block: the 32-bit data word, the frame byte and the payload nibble. -/

namespace Sys2Proof

/-- A data word: `CW`, `DA`, `DB`, `R0`, `R1` and one table entry, WMAX = 32 bits each
(00_scope.md R6, 10_state.md R21, R26). Bit 0 is the least significant bit (00_scope.md R11). -/
abbrev Word := BitVec 32

/-- A parity frame, "a single byte" (30_encoding.md R71, R72). -/
abbrev Frame := BitVec 8

/-- A frame's payload, four bits (30_encoding.md R71, R72). -/
abbrev Nibble := BitVec 4

end Sys2Proof
end

