-- ==== Sys2Proof/Syntax.lean ====
section
/-! DEFINITION. The fourteen commands as syntax, one constructor per row of spec/opcode_table.json, and the three words a
command is sent in. -/

namespace Sys2Proof

/-- One request of the host: the control word and the two data words (30_encoding.md R60, 10_state.md R21). -/
structure Command where
  /-- the control word: opcode and fields -/
  cw : Word
  /-- first data operand -/
  da : Word
  /-- second data operand -/
  db : Word
  deriving DecidableEq, Repr

/-- The flip-count mode of CORRUPT, bit `M` (43_channel.md R133). -/
inductive FlipMode where
  /-- `M = 0`: the count of each block is drawn from `[0, Mx]` -/
  | random
  /-- `M = 1`: the count of each block is exactly `Mx` -/
  | exact
  deriving DecidableEq, Repr

/-- The framing variant, bit `V` (30_encoding.md R71, R72). -/
inductive Variant where
  /-- `V = 0`: five checked bits, three parity bits -/
  | v0
  /-- `V = 1`: six checked bits, two parity bits -/
  | v1
  deriving DecidableEq, Repr

/-- A selected command with its operands (30_encoding.md R62, R63). The numeric fields `F1`, `F2`, `F3` are unsigned
integers "used as they stand"; a data word that a command ignores is no operand of its constructor. -/
inductive Instr where
  /-- HDIST, 40_bitmetric.md R92: `F1`, `DA`, `DB` -/
  | hdist (width : Nat) (a b : Word)
  /-- POPCNT, 40_bitmetric.md R93: `DA` -/
  | popcnt (x : Word)
  /-- CB_WRITE, 41_codebook.md R102: `DA`, `DB` -/
  | cbWrite (symbol codeword : Word)
  /-- CB_VERIFY, 41_codebook.md R103: `F1`, `F2` -/
  | cbVerify (width dmin : Nat)
  /-- CB_SEAL, 41_codebook.md R104: `F1`, `F2` -/
  | cbSeal (width dmin : Nat)
  /-- CB_GEN, 41_codebook.md R106: `F1`, `F2`, `F3` -/
  | cbGen (width dmin count : Nat)
  /-- CB_STAT, 41_codebook.md R108 -/
  | cbStat
  /-- ENCODE, 42_codec.md R120: `DA` -/
  | encode (symbol : Word)
  /-- DECODE, 42_codec.md R122: `DA` -/
  | decode (received : Word)
  /-- CORRUPT, 43_channel.md R133: `F1`, `F2`, `F3`, `M`, `DA` -/
  | corrupt (width block maxFlips : Nat) (mode : FlipMode) (word : Word)
  /-- FRAME_ENC, 44_parityframe.md R144: `V`, `DA` -/
  | frameEnc (variant : Variant) (payload : Word)
  /-- FRAME_DEC, 44_parityframe.md R145: `V`, `DA` -/
  | frameDec (variant : Variant) (frame : Word)
  /-- VAL12_ENC, 44_parityframe.md R146: `DA` -/
  | val12Enc (value : Word)
  /-- VAL12_DEC, 44_parityframe.md R147: `DA` -/
  | val12Dec (frames : Word)
  deriving DecidableEq, Repr

end Sys2Proof
end

