-- ==== Sys2Proof/WellFormed.lean ====
section
/-! DEFINITION. Which terms of `Instr` a command word can carry: every numeric field fits its six bits. -/

namespace Sys2Proof

/-- `F1`, `F2` and `F3` are six bits wide (30_encoding.md R61). -/
def fitsField (n : Nat) : Bool := n < 64

/-- The numeric fields of the instruction fit the control word (30_encoding.md R61, R63). A value outside the range
that a command's rule gives is NOT ill-formed: "the command is selected and answers InvalidValueRange" (R63). -/
def Instr.wellFormed : Instr → Bool
  | .hdist width _ _ => fitsField width
  | .popcnt _ => true
  | .cbWrite _ _ => true
  | .cbVerify width dmin => fitsField width && fitsField dmin
  | .cbSeal width dmin => fitsField width && fitsField dmin
  | .cbGen width dmin count => fitsField width && fitsField dmin && fitsField count
  | .cbStat => true
  | .encode _ => true
  | .decode _ => true
  | .corrupt width block maxFlips _ _ => fitsField width && fitsField block && fitsField maxFlips
  | .frameEnc _ _ => true
  | .frameDec _ _ => true
  | .val12Enc _ => true
  | .val12Dec _ => true

end Sys2Proof
end

