-- ==== Sys2Proof/Decode.lean ====
section
/-! DEFINITION. The opcode table and the decoder (30_encoding.md R61 to R66), total on any three words, and after it the
encoder written from the same table. -/

namespace Sys2Proof

/-- Field `F1`, bits 26:21 of the control word (30_encoding.md R61). -/
def fieldF1 (cw : Word) : Nat := (cw.extractLsb' 21 6).toNat

/-- Field `F2`, bits 20:15 (30_encoding.md R61). -/
def fieldF2 (cw : Word) : Nat := (cw.extractLsb' 15 6).toNat

/-- Field `F3`, bits 14:9 (30_encoding.md R61). -/
def fieldF3 (cw : Word) : Nat := (cw.extractLsb' 9 6).toNat

/-- Field `M`, bit 8 (30_encoding.md R61, 43_channel.md R133). -/
def fieldM (cw : Word) : FlipMode := if cw.getLsbD 8 then .exact else .random

/-- Field `V`, bit 7 (30_encoding.md R61, R71, R72). -/
def fieldV (cw : Word) : Variant := if cw.getLsbD 7 then .v1 else .v0

/-- One row of the table of 30_encoding.md R62: a control word `w` selects the row exactly when
`w & mask == pattern`; `operands` takes the operands from the command's words (R63). -/
structure OpcodeRow where
  /-- the row's mnemonic -/
  mnemonic : String
  /-- the column "match" -/
  pattern : Word
  /-- the column "mask" -/
  mask : Word
  /-- operand assembly, R63 -/
  operands : Command → Instr

/-- The row selects the control word (30_encoding.md R62). -/
def OpcodeRow.selects (row : OpcodeRow) (cw : Word) : Bool := cw &&& row.mask == row.pattern

/-- The fourteen rows of 30_encoding.md R62, in table order. -/
def opcodeRows : List OpcodeRow :=
  [ ⟨"HDIST",     0x08000000, 0xF81FFFFF, fun c => .hdist (fieldF1 c.cw) c.da c.db⟩,
    ⟨"POPCNT",    0x10000000, 0xFFFFFFFF, fun c => .popcnt c.da⟩,
    ⟨"CB_WRITE",  0x18000000, 0xFFFFFFFF, fun c => .cbWrite c.da c.db⟩,
    ⟨"CB_VERIFY", 0x20000000, 0xF8007FFF, fun c => .cbVerify (fieldF1 c.cw) (fieldF2 c.cw)⟩,
    ⟨"CB_SEAL",   0x28000000, 0xF8007FFF, fun c => .cbSeal (fieldF1 c.cw) (fieldF2 c.cw)⟩,
    ⟨"CB_GEN",    0x30000000, 0xF80001FF, fun c => .cbGen (fieldF1 c.cw) (fieldF2 c.cw) (fieldF3 c.cw)⟩,
    ⟨"CB_STAT",   0x38000000, 0xFFFFFFFF, fun _ => .cbStat⟩,
    ⟨"ENCODE",    0x40000000, 0xFFFFFFFF, fun c => .encode c.da⟩,
    ⟨"DECODE",    0x48000000, 0xFFFFFFFF, fun c => .decode c.da⟩,
    ⟨"CORRUPT",   0x50000000, 0xF80000FF,
      fun c => .corrupt (fieldF1 c.cw) (fieldF2 c.cw) (fieldF3 c.cw) (fieldM c.cw) c.da⟩,
    ⟨"FRAME_ENC", 0x58000000, 0xFFFFFF7F, fun c => .frameEnc (fieldV c.cw) c.da⟩,
    ⟨"FRAME_DEC", 0x60000000, 0xFFFFFF7F, fun c => .frameDec (fieldV c.cw) c.da⟩,
    ⟨"VAL12_ENC", 0x68000000, 0xFFFFFFFF, fun c => .val12Enc c.da⟩,
    ⟨"VAL12_DEC", 0x70000000, 0xFFFFFFFF, fun c => .val12Dec c.da⟩ ]

/-- What the decoder answers. -/
inductive Decoded where
  /-- the control word selects a row: the command with its operands -/
  | instr (i : Instr)
  /-- 30_encoding.md R66: the control word selects no row -/
  | illegalCommand
  deriving DecidableEq, Repr

/-- The decoder of 30_encoding.md R65, total on any 96 bits: the first row in table order that the control word
selects. -/
def decodeCommand (c : Command) : Decoded :=
  match opcodeRows.find? (fun row => row.selects c.cw) with
  | some row => .instr (row.operands c)
  | none => .illegalCommand

/-- The instruction of a decoder's answer, if it is one. -/
def Decoded.toInstr? : Decoded → Option Instr
  | .instr i => some i
  | .illegalCommand => none

/-! ## The encoder -/

/-- A control word from its fields, `OP` in bits 31:27 down to `Z` in bits 6:0, which is 0 (30_encoding.md R61). -/
def controlWord (op f1 f2 f3 : Nat) (m v : Bool) : Word :=
  BitVec.ofNat 5 op ++ BitVec.ofNat 6 f1 ++ BitVec.ofNat 6 f2 ++ BitVec.ofNat 6 f3 ++
    BitVec.ofBool m ++ BitVec.ofBool v ++ (0 : BitVec 7)

/-- Bit `M` of a flip-count mode (43_channel.md R133). -/
def FlipMode.bit : FlipMode → Bool
  | .random => false
  | .exact => true

/-- Bit `V` of a framing variant (30_encoding.md R71, R72). -/
def Variant.bit : Variant → Bool
  | .v0 => false
  | .v1 => true

/-- The words of an instruction, written from 30_encoding.md R61 to R63. "An unused data word is assembled as 0" (R68). -/
def encodeCommand : Instr → Command
  | .hdist width a b => ⟨controlWord 0x01 width 0 0 false false, a, b⟩
  | .popcnt x => ⟨controlWord 0x02 0 0 0 false false, x, 0⟩
  | .cbWrite symbol codeword => ⟨controlWord 0x03 0 0 0 false false, symbol, codeword⟩
  | .cbVerify width dmin => ⟨controlWord 0x04 width dmin 0 false false, 0, 0⟩
  | .cbSeal width dmin => ⟨controlWord 0x05 width dmin 0 false false, 0, 0⟩
  | .cbGen width dmin count => ⟨controlWord 0x06 width dmin count false false, 0, 0⟩
  | .cbStat => ⟨controlWord 0x07 0 0 0 false false, 0, 0⟩
  | .encode symbol => ⟨controlWord 0x08 0 0 0 false false, symbol, 0⟩
  | .decode received => ⟨controlWord 0x09 0 0 0 false false, received, 0⟩
  | .corrupt width block maxFlips mode word => ⟨controlWord 0x0A width block maxFlips mode.bit false, word, 0⟩
  | .frameEnc variant payload => ⟨controlWord 0x0B 0 0 0 false variant.bit, payload, 0⟩
  | .frameDec variant frame => ⟨controlWord 0x0C 0 0 0 false variant.bit, frame, 0⟩
  | .val12Enc value => ⟨controlWord 0x0D 0 0 0 false false, value, 0⟩
  | .val12Dec frames => ⟨controlWord 0x0E 0 0 0 false false, frames, 0⟩

/-- The mnemonic of an instruction (30_encoding.md R62). -/
def Instr.mnemonic : Instr → String
  | .hdist _ _ _ => "HDIST"
  | .popcnt _ => "POPCNT"
  | .cbWrite _ _ => "CB_WRITE"
  | .cbVerify _ _ => "CB_VERIFY"
  | .cbSeal _ _ => "CB_SEAL"
  | .cbGen _ _ _ => "CB_GEN"
  | .cbStat => "CB_STAT"
  | .encode _ => "ENCODE"
  | .decode _ => "DECODE"
  | .corrupt _ _ _ _ _ => "CORRUPT"
  | .frameEnc _ _ => "FRAME_ENC"
  | .frameDec _ _ => "FRAME_DEC"
  | .val12Enc _ => "VAL12_ENC"
  | .val12Dec _ => "VAL12_DEC"

/-! ## The host's numbering of an instruction's bits -/

/-- The three words of a command whose bits are `w`, `nbits` of them given and every bit above them 0: bits 31:0 are
`CW`, bits 63:32 `DA`, bits 95:64 `DB` (opcode_table.json "words"; 30_encoding.md R60). -/
def tableCommand (nbits w : Nat) : Command :=
  let bits := w % 2 ^ nbits
  ⟨BitVec.ofNat 32 bits, BitVec.ofNat 32 (bits >>> 32), BitVec.ofNat 32 (bits >>> 64)⟩

/-- The instruction the decoder reads from a command whose bits are `w`, numbered as spec/opcode_table.json numbers
them. -/
def decodeTableWord (nbits w : Nat) : Option Instr :=
  (decodeCommand (tableCommand nbits w)).toInstr?

end Sys2Proof
end

