-- ==== Sys2Proof/Config.lean ====
section
/-! DEFINITION. What the elaboration of the block fixes, and the free values: the answers of the random source that no
queue of the state lists. -/

namespace Sys2Proof.Config

/-- WMAX, the width of a data word and of a table entry. 00_scope.md R6: fixed at 32 by the command format. -/
def wmax : Nat := 32

/-- The default of the parameter K, the symbol width. 00_scope.md R6: "4 in all observed uses".
DESIGN CHOICE (LOG 1): the state carries K, and reset gives it this value. Safe: no theorem about all states uses it. -/
def defaultK : Nat := 4

/-- The bounds of the parameter K, "1 to 5". 00_scope.md R6. -/
def legalK (k : Nat) : Bool := 1 ≤ k && k ≤ 5

/-- FREE VALUE (LOG 4): what the random source answers to the `n`-th request of a run (counting from 0) when that
request is a `RndCount` and no answer is listed. 43_channel.md R132: the source always answers, and only the range of
the answer is bound; `Machine.countAnswer` reads it within that range. Safe: nothing constrains it. -/
opaque freeCount : Nat → Nat

/-- FREE VALUE (LOG 4): the same for a `RndPositions` request, as a mask whose bit `p` says whether position `p` is in
the set. `Machine.pickPositions` reads it within the contract of 43_channel.md R132. Safe: nothing constrains it. -/
opaque freePositions : Nat → Word

end Sys2Proof.Config
end

