-- ==== Sys2Proof/Machine/State.lean ====
section
/-! DEFINITION. The state as plain data: the block's own state (10_state.md R23 to R26), the elaboration parameter K, and
the environment that one deterministic step shows (the host's list of moves and the responses given to it, the random
source's answers and the requests sent to it). -/

namespace Sys2Proof.Machine

/-- The codebook table `LUT` with its present bits, as the list of the entries that hold a value, by symbol. An entry
that the list does not hold has `PRES` 0 and NO VALUE (10_state.md R25, R26; 93 U13; LOG 2). The unit is one 32-bit entry:
"there is no byte addressing inside an entry" (20_memory.md R40). -/
abbrev Memory := List (Nat × Word)

/-- The canonical form of the table: the symbols strictly rise. An unlisted entry reads as no value, so no listed entry
can equal what an unlisted one reads as. -/
def Memory.wf : Memory → Bool
  | [] => true
  | [_] => true
  | e :: f :: rest => decide (e.1 < f.1) && Memory.wf (f :: rest)

/-- The nine error statuses (60_exceptions.md R160), codes 1 to 9. -/
inductive ErrorStatus where
  | invalidCodebook
  | codebookExhausted
  | unknownSymbol
  | structuralMismatch
  | parityMismatch
  | invalidValueRange
  | illegalCommand
  | codebookNotReady
  | codebookLocked
  deriving DecidableEq, Repr

/-- The status of a response: exactly the ten values of 60_exceptions.md R160 (93 U11). -/
inductive Status where
  /-- code 0: the command completed -/
  | ok
  /-- an error status -/
  | error (e : ErrorStatus)
  deriving DecidableEq, Repr

/-- The block's answer to one command (30_encoding.md R64). -/
structure Response where
  st : Status
  r0 : Word
  r1 : Word
  deriving DecidableEq, Repr

/-- The block's own state; "the only state is the codebook" (00_scope.md R9, 10_state.md R24 to R26). -/
structure Block where
  /-- `LUT` and `PRES` (R25, R26) -/
  lut : Memory
  /-- `cb_sealed` (R24) -/
  cbSealed : Bool
  /-- `cb_width` (R24) -/
  cbWidth : BitVec 6
  /-- `cb_dmin` (R24) -/
  cbDmin : BitVec 6
  deriving DecidableEq, Repr

/-- The block after reset (10_state.md R29, 70_reset_and_hazards.md R180). -/
def Block.reset : Block :=
  { lut := [], cbSealed := false, cbWidth := 0, cbDmin := 0 }

/-- A request of the block to the random source (43_channel.md R132). -/
inductive SourceRequest where
  /-- `RndCount(Mx)` -/
  | count (maxFlips : Nat)
  /-- `RndPositions(B, n)` -/
  | positions (block n : Nat)
  deriving DecidableEq, Repr

/-- The random source as the block meets it (43_channel.md R132; LOG 4). It is outside the block and no state of it;
no command but CORRUPT reads or changes it. -/
structure Source where
  /-- the answers to the `RndCount` requests to come, next first -/
  counts : List Nat
  /-- the answers to the `RndPositions` requests to come, next first, each a mask with bit `p` set when `p` is in the set -/
  positions : List Word
  /-- the requests sent so far, oldest first -/
  requests : List SourceRequest
  deriving DecidableEq, Repr

/-- One move of the host (70_reset_and_hazards.md R188). -/
inductive HostMove where
  /-- it presents a command and waits for the response -/
  | command (c : Command)
  /-- it asserts and releases reset between commands (R180) -/
  | reset
  /-- it presents a command and asserts reset before the response is given (R181) -/
  | resetDuring (c : Command)
  deriving DecidableEq, Repr

/-- The state of the machine. -/
structure State where
  /-- the elaboration parameter K (00_scope.md R6; LOG 1): a symbol is a number below `2^k` -/
  k : Nat
  /-- the block's own state -/
  block : Block
  /-- the random source, outside the block -/
  source : Source
  /-- the host's moves of this run (10_state.md R22, 70_reset_and_hazards.md R189; LOG 3) -/
  program : List HostMove
  /-- "an index `pc` into the list, a natural number that starts at 0" (10_state.md R22) -/
  pc : Nat
  /-- the responses given so far, oldest first (70_reset_and_hazards.md R189) -/
  responses : List Response
  deriving DecidableEq, Repr

/-- Why the machine stops. -/
inductive Fault where
  /-- DECODE finds a sealed codebook with no present entry, so `Nearest` has no symbol to return (42_codec.md R121,
  10_state.md R27). Raised by `execDecode` only, in states that no run reaches (LOG 9). Safe: it stops. -/
  | nearestOfEmptyCodebook
  deriving DecidableEq, Repr

/-- Why an instruction has no step. -/
inductive Refusal where
  /-- The instruction has no meaning in this model. Raised by an arm of `exec` only; no arm raises it now. Safe. -/
  | notModelled (mnemonic : String)
  deriving DecidableEq, Repr

/-- The machine after reset: the block as 10_state.md R29 says, the index at 0 (R22); the model's own fields as LOG 1,
LOG 3 and LOG 4 say. DESIGN CHOICE for those: K at the spec's default, no move, no response, no answer listed. -/
def State.reset : State :=
  { k := Config.defaultK
    block := Block.reset
    source := { counts := [], positions := [], requests := [] }
    program := []
    pc := 0
    responses := [] }

end Sys2Proof.Machine
end

