-- ==== Sys2Proof/Machine/Ops.lean ====
section
/-! DEFINITION. The named operations: the table as memory (20_memory.md), answering a command, ending one with an error
status, the two requests to the random source (43_channel.md R132), reset, and the host's next move. -/

namespace Sys2Proof.Machine

/-- What a step or a meaning answers. -/
abbrev Result := Host.Outcome State Fault Refusal

/-! ## The table -/

/-- The value an entry holds, `none` when it is not present: `MemRead` of 20_memory.md R41 with the option of
10_state.md R26. -/
def memRead : Memory → Nat → Option Word
  | [], _ => none
  | (b, v) :: rest, a => if b = a then some v else memRead rest a

/-- `MemWrite` and the present bit that goes with it (20_memory.md R41). It keeps the canonical form. -/
def memWrite : Memory → Nat → Word → Memory
  | [], a, v => [(a, v)]
  | (b, w) :: rest, a, v =>
    if a < b then (a, v) :: (b, w) :: rest
    else if a = b then (a, v) :: rest
    else (b, w) :: memWrite rest a v

/-- The number of symbols, `2^K` (10_state.md R26). -/
def symbolCount (s : State) : Nat := 2 ^ s.k

/-- `PRES[a]` (10_state.md R25). -/
def isPresent (s : State) (a : Nat) : Bool := (memRead s.block.lut a).isSome

/-- The present entries in ascending order of symbol, each with its codeword: what a loop `for s in 0 .. 2^K - 1
ascending` with the guard `PRES[s] == 1` visits (41_codebook.md R101, 42_codec.md R121). -/
def codebook (s : State) : List (Nat × Word) :=
  (List.range (symbolCount s)).filterMap fun a => (memRead s.block.lut a).map fun v => (a, v)

/-- `PRES[0] + ... + PRES[2^K - 1]` (41_codebook.md R104, R108). -/
def presentCount (s : State) : Nat := (codebook s).length

/-- The word with bit `a` set exactly when `PRES[a]` is 1, for `a < 2^K` (41_codebook.md R108). -/
def presentMask (s : State) : Word :=
  (codebook s).foldl (fun m e => m ||| (1#32 <<< e.1)) 0

/-- Writes one entry of the table and its present bit (41_codebook.md R102). -/
def writeEntry (a : Nat) (v : Word) (s : State) : State :=
  { s with block := { s.block with lut := memWrite s.block.lut a v } }

/-- Enters the sealed phase with width `w` and minimum distance `d` (10_state.md R24, 41_codebook.md R100). -/
def sealCodebook (w d : Nat) (s : State) : State :=
  { s with block :=
      { s.block with cbSealed := true, cbWidth := BitVec.ofNat 6 w, cbDmin := BitVec.ofNat 6 d } }

/-- Replaces the whole table: symbol `a` gets the `a`-th codeword of the list, and every symbol past its end is not
present any more and loses its value (41_codebook.md R106; 93 U13). -/
def loadTable (codewords : List Word) (s : State) : State :=
  { s with block := { s.block with lut := codewords.mapIdx fun a v => (a, v) } }

/-- The random source after the requests of a command (43_channel.md R132). -/
def setSource (src : Source) (s : State) : State := { s with source := src }

/-! ## Answering -/

/-- Gives the response of the command in progress and moves the host's index on: "every command, whatever its status,
does `pc <- pc + 1`" (10_state.md R22, 30_encoding.md R64). -/
def respond (st : Status) (r0 r1 : Word) (s : State) : State :=
  { s with responses := s.responses ++ [{ st := st, r0 := r0, r1 := r1 }], pc := s.pc + 1 }

/-- Ends a command with status OK (30_encoding.md R64). -/
def finish (r0 r1 : Word) (s : State) : Result := .next (respond .ok r0 r1 s)

/-- `raise E(info)`, the one way a command fails: `ST = code(E)`, `R0 = 0`, `R1 = info`, no change to the block, no
request to the source, "control goes nowhere" (60_exceptions.md R163, R166). -/
def raise (e : ErrorStatus) (info : Word) (s : State) : Result := .next (respond (.error e) 0 info s)

/-- The code of a status, the 4-bit word `ST` (60_exceptions.md R160). -/
def statusCode : Status → BitVec 4
  | .ok => 0
  | .error .invalidCodebook => 1
  | .error .codebookExhausted => 2
  | .error .unknownSymbol => 3
  | .error .structuralMismatch => 4
  | .error .parityMismatch => 5
  | .error .invalidValueRange => 6
  | .error .illegalCommand => 7
  | .error .codebookNotReady => 8
  | .error .codebookLocked => 9

/-- An illegal command (30_encoding.md R66). -/
def illegalCommand (s : State) : Result := raise .illegalCommand 0 s

/-! ## The random source -/

/-- The count that a raw answer stands for within the contract `0 <= n <= Mx` (43_channel.md R132). A raw answer within
the contract stands for itself; the host has no move that answers outside it (70_reset_and_hazards.md R188; LOG 5). -/
def countAnswer (maxFlips raw : Nat) : Nat := raw % (maxFlips + 1)

/-- The `n`-element set of positions below `b` that a raw mask stands for (43_channel.md R132): positions are visited
from the highest down, a position is taken when the mask has it and when every position left is needed. A mask that is
such a set stands for itself; the host has no move that answers otherwise (70_reset_and_hazards.md R188; LOG 5). -/
def pickPositions : Nat → Nat → Word → Word
  | 0, _, _ => 0
  | b + 1, n, raw =>
    if n = 0 then 0
    else if raw.getLsbD b || decide (b + 1 ≤ n) then (1#32 <<< b) ||| pickPositions b (n - 1) raw
    else pickPositions b n raw

/-- `RndCount(Mx)`: the request is sent, the source answers (43_channel.md R132). The answer is the next listed one, and
a free value when none is listed (LOG 4). -/
def rndCount (maxFlips : Nat) (src : Source) : Nat × Source :=
  (countAnswer maxFlips (src.counts.headD (Config.freeCount src.requests.length)),
   { src with counts := src.counts.tail, requests := src.requests ++ [.count maxFlips] })

/-- `RndPositions(B, n)`: the request is sent, the source answers with the mask of a set (43_channel.md R132). The
answer is the next listed one, and a free value when none is listed (LOG 4). -/
def rndPositions (b n : Nat) (src : Source) : Word × Source :=
  (pickPositions b n (src.positions.headD (Config.freePositions src.requests.length)),
   { src with positions := src.positions.tail, requests := src.requests ++ [.positions b n] })

/-! ## Reset and the host -/

/-- The host's reset, between commands or during one: the block is as after power-on whatever the command had done, no
response is given (70_reset_and_hazards.md R180, R181), and the host's index moves on. The parameter K and the
environment stay. -/
def resetBlock (s : State) : State := { s with block := Block.reset, pc := s.pc + 1 }

/-- The host's next move, `none` after the last one (10_state.md R22, 70_reset_and_hazards.md R189). -/
def nextMove (s : State) : Option HostMove := s.program[s.pc]?

/-- The list of moves with `m` at index `n`; a list too short for that is filled up with resets, which no reachable
state needs. -/
def placeMove (m : HostMove) : List HostMove → Nat → List HostMove
  | [], 0 => [m]
  | _ :: rest, 0 => m :: rest
  | [], n + 1 => .reset :: placeMove m [] n
  | h :: rest, n + 1 => h :: placeMove m rest n

end Sys2Proof.Machine
end

