-- ==== Sys2Proof/Machine/Operands.lean ====
section
/-! DEFINITION. Operand ranges (30_encoding.md R63) and the data layouts of words, sub-blocks, frames and pairs
(20_memory.md R44, 30_encoding.md R70 to R74, 43_channel.md R130). -/

namespace Sys2Proof.Machine

/-- `mask(n) = 2^n - 1` as a data word (00_scope.md R12); from 32 on every bit of the word. -/
def lowMask (n : Nat) : Word := BitVec.ofNat 32 (2 ^ n - 1)

/-- The word has no 1 at bit `n` or above: it is below `2^n` (30_encoding.md R63). -/
def fitsBits (n : Nat) (x : Word) : Bool := x >>> n == 0

/-- A codeword width, 1 to WMAX (30_encoding.md R63). -/
def widthInRange (w : Nat) : Bool := 1 ≤ w && w ≤ Config.wmax

/-- A symbol of the block, below `2^K` (30_encoding.md R74, 20_memory.md R40). -/
def isSymbol (s : State) (x : Word) : Bool := x.toNat < symbolCount s

/-- A number of codewords to generate, 1 to `2^K` (30_encoding.md R63). -/
def countInRange (s : State) (n : Nat) : Bool := 1 ≤ n && n ≤ symbolCount s

/-- A block width of CORRUPT: 1 to `Ww`, dividing `Ww` (30_encoding.md R63, 43_channel.md R133). -/
def blockInRange (ww b : Nat) : Bool := 1 ≤ b && b ≤ ww && ww % b == 0

/-- A number as a result word (30_encoding.md R74). -/
def toWord (n : Nat) : Word := BitVec.ofNat 32 n

/-- A pair of symbols as error information: `R1[15:8] = i`, `R1[7:0] = j` (30_encoding.md R74). -/
def pairWord (i j : Nat) : Word := toWord ((i <<< 8) ||| j)

/-- Byte `n` of a `W`-bit codeword laid out, `c[W-1-8n : W-8-8n]`: "most-significant byte first" (20_memory.md R44,
30_encoding.md R70), for a `W` that is a multiple of 8 and `n < W / 8`. DESIGN CHOICE (LOG 14): R44 gives no layout in bytes for
another `W` (91_not_in_source.md N13), and the value of this function there means nothing. Safe: no meaning uses it. -/
def codewordByte (w n : Nat) (c : Word) : BitVec 8 := c.extractLsb' (w - 8 - 8 * n) 8

/-- The bits of a `W`-bit codeword in the order sent, bit `W-1` first (20_memory.md R44, 30_encoding.md R70). -/
def serialBits (w : Nat) (c : Word) : List Bool := (List.range w).map fun i => c.getLsbD (w - 1 - i)

/-- Sub-block `j` of a word of width `ww` in blocks of `b` bits, `x[Ww-1-j*B : Ww-B-j*B]`: block 0 is the most
significant (43_channel.md R130). The rule is for a `b` that divides `ww` and `j < ww / b`; elsewhere LOG 14. -/
def subBlock (ww b j : Nat) (x : Word) : Word := (x >>> (ww - b - j * b)) &&& lowMask b

/-- The payload operand of FRAME_ENC, four bits of the data word (30_encoding.md R63). -/
def payloadOf (x : Word) : Nibble := x.setWidth 4

/-- Frame `i` of the 24-bit value `{f0, f1, f2}`, `DA[23-8*i : 16-8*i]` (30_encoding.md R73, 44_parityframe.md R147),
for `i < 3`; elsewhere LOG 14. -/
def packedFrame (x : Word) (i : Nat) : Frame := x.extractLsb' (16 - 8 * i) 8

/-- Three frames in one data word, the first in bits 23:16 (30_encoding.md R73). -/
def packFrames (f0 f1 f2 : Frame) : Word := (0 : BitVec 8) ++ f0 ++ f1 ++ f2

/-- Nibble `i` of a 12-bit value, "most-significant nibble first" (30_encoding.md R73), for `i < 3`; elsewhere LOG 14. -/
def value12Nibble (x : Word) (i : Nat) : Nibble := x.extractLsb' (8 - 4 * i) 4

end Sys2Proof.Machine
end

