-- ==== Sys2Proof/Machine/Flags.lean ====
section
/-! DEFINITION. The flag bits of result words (10_state.md R23): CB_VERIFY's pass bit, CORRUPT's distance-budget flag and
CB_STAT's packed control fields. -/

namespace Sys2Proof.Machine

/-- CB_VERIFY `R0[0]`: 1 pass, 0 fail (30_encoding.md R64, 41_codebook.md R103). -/
def passFlag (pass : Bool) : Word := if pass then 1 else 0

/-- `BudgetFlag(Ww, nb, Mx)`: a codebook is sealed, the word has its width, and `2 * (nb * Mx) >= cb_dmin`
(43_channel.md R135). -/
def budgetExceeded (blk : Block) (ww nb maxFlips : Nat) : Bool :=
  blk.cbSealed && ww == blk.cbWidth.toNat && decide (blk.cbDmin.toNat ≤ 2 * (nb * maxFlips))

/-- CORRUPT `R1[0]`; other bits 0 (30_encoding.md R64, 43_channel.md R135). -/
def budgetFlag (blk : Block) (ww nb maxFlips : Nat) : Word :=
  if budgetExceeded blk ww nb maxFlips then 1 else 0

/-- CB_STAT `R0`: `(n << 24) | (cb_dmin << 16) | (cb_width << 8) | cb_sealed` (41_codebook.md R108; 90 C8: the count is
six bits, `R0[29:24]`). -/
def statWord (n : Nat) (blk : Block) : Word :=
  (toWord n <<< 24) ||| (blk.cbDmin.setWidth 32 <<< 16) ||| (blk.cbWidth.setWidth 32 <<< 8) |||
    (if blk.cbSealed then 1 else 0)

end Sys2Proof.Machine
end

