-- ==== Sys2Proof/Machine/BitMetric.lean ====
section
/-! DEFINITION. BitMetric, the Hamming-distance comparator: HDIST and POPCNT (40_bitmetric.md). -/

namespace Sys2Proof.Machine

/-- The number of bits equal to 1 among the lowest `n` bits of `x`. -/
def popcountBelow (x : Word) : Nat → Nat
  | 0 => 0
  | n + 1 => popcountBelow x n + (x.getLsbD n).toNat

/-- `popcount(x) = x[0] + x[1] + ... + x[31]` (40_bitmetric.md R90). -/
def popcount (x : Word) : Nat := popcountBelow x 32

/-- `HD(a, b, w) = popcount((a ^ b) & mask(w))` (40_bitmetric.md R91). -/
def hammingDistance (a b : Word) (w : Nat) : Nat := popcount ((a ^^^ b) &&& lowMask w)

/-- HDIST (40_bitmetric.md R92). -/
def execHdist (width : Nat) (a b : Word) (s : State) : Result :=
  finish (toWord (hammingDistance a b width)) 0 s

/-- POPCNT (40_bitmetric.md R93). -/
def execPopcnt (x : Word) (s : State) : Result :=
  finish (toWord (popcount x)) 0 s

end Sys2Proof.Machine
end

