-- ==== Sys2Proof/Machine/Codebook.lean ====
section
/-! DEFINITION. CodebookBuilder: verification, greedy generation, and CB_WRITE, CB_VERIFY, CB_SEAL, CB_GEN, CB_STAT
(41_codebook.md). -/

namespace Sys2Proof.Machine

/-! ## Verification -/

/-- The outcomes of `Verify(W, D)` (41_codebook.md R101). -/
inductive VerifyOutcome where
  /-- an entry does not fit `W` bits; the lowest such symbol -/
  | tooWide (symbol : Nat)
  /-- the first violating pair, `i < j` -/
  | violation (i j : Nat)
  /-- every entry fits and every pair is far enough -/
  | pass
  deriving DecidableEq, Repr

/-- The first pair, ascending `i` then ascending `j`, nearer than `d` (41_codebook.md R101, the second loop), over the
present entries in ascending order. -/
def firstViolation (w d : Nat) : List (Nat × Word) → Option (Nat × Nat)
  | [] => none
  | (i, ci) :: rest =>
    match rest.find? (fun e => hammingDistance ci e.2 w < d) with
    | some e => some (i, e.1)
    | none => firstViolation w d rest

/-- `Verify(W, D)` over the present entries in ascending order (41_codebook.md R101). -/
def verifyEntries (entries : List (Nat × Word)) (w d : Nat) : VerifyOutcome :=
  match entries.find? (fun e => !fitsBits w e.2) with
  | some e => .tooWide e.1
  | none =>
    match firstViolation w d entries with
    | some (i, j) => .violation i j
    | none => .pass

/-- `Verify(W, D)` over the current table (41_codebook.md R101). -/
def verify (s : State) (w d : Nat) : VerifyOutcome := verifyEntries (codebook s) w d

/-! ## Generation -/

/-- The candidate is at distance `d` or more from every accepted codeword (41_codebook.md R105). -/
def isAccepted (w d : Nat) (accepted : List Word) (c : Word) : Bool :=
  accepted.all fun a => decide (d ≤ hammingDistance c a w)

/-- The loop of `Greedy(N, W, D)` (41_codebook.md R105) with `fuel` candidates left, the next one `c`: the accepted
codewords once there are `n` of them, `none` when the space is exhausted. -/
def greedyFrom (n w d : Nat) : Nat → Nat → List Word → Option (List Word)
  | 0, _, _ => none
  | fuel + 1, c, accepted =>
    if isAccepted w d accepted (toWord c) then
      if accepted.length + 1 = n then some (accepted ++ [toWord c])
      else greedyFrom n w d fuel (c + 1) (accepted ++ [toWord c])
    else greedyFrom n w d fuel (c + 1) accepted

/-- `Greedy(N, W, D)`: `some` is `Found(acc)`, `none` is `Exhausted` (41_codebook.md R105). -/
def greedy (n w d : Nat) : Option (List Word) := greedyFrom n w d (2 ^ w) 0 []

/-! ## Commands -/

/-- CB_WRITE (41_codebook.md R102). -/
def execCbWrite (symbol codeword : Word) (s : State) : Result :=
  if s.block.cbSealed then raise .codebookLocked 0 s
  else if !isSymbol s symbol then raise .invalidValueRange 0 s
  else finish 0 0 (writeEntry symbol.toNat codeword s)

/-- CB_VERIFY (41_codebook.md R103). -/
def execCbVerify (width dmin : Nat) (s : State) : Result :=
  if !widthInRange width then raise .invalidValueRange 0 s
  else
    match verify s width dmin with
    | .tooWide a => raise .invalidValueRange (toWord a) s
    | .violation i j => finish (passFlag false) (pairWord i j) s
    | .pass => finish (passFlag true) 0 s

/-- CB_SEAL (41_codebook.md R104). -/
def execCbSeal (width dmin : Nat) (s : State) : Result :=
  if s.block.cbSealed then raise .codebookLocked 0 s
  else if !widthInRange width then raise .invalidValueRange 0 s
  else if presentCount s = 0 then raise .invalidCodebook 0 s
  else
    match verify s width dmin with
    | .tooWide a => raise .invalidValueRange (toWord a) s
    | .violation i j => raise .invalidCodebook (pairWord i j) s
    | .pass => finish (toWord (presentCount s)) 0 (sealCodebook width dmin s)

/-- CB_GEN (41_codebook.md R106). -/
def execCbGen (width dmin count : Nat) (s : State) : Result :=
  if s.block.cbSealed then raise .codebookLocked 0 s
  else if !widthInRange width then raise .invalidValueRange 0 s
  else if !countInRange s count then raise .invalidValueRange 0 s
  else
    match greedy count width dmin with
    | none => raise .codebookExhausted 0 s
    | some codewords => finish (toWord count) 0 (sealCodebook width dmin (loadTable codewords s))

/-- CB_STAT (41_codebook.md R108). -/
def execCbStat (s : State) : Result :=
  finish (statWord (presentCount s) s.block) (presentMask s) s

end Sys2Proof.Machine
end

