-- ==== Sys2Proof/Machine/Codec.lean ====
section
/-! DEFINITION. CodewordCodec: the nearest-codeword search, ENCODE and DECODE (42_codec.md). -/

namespace Sys2Proof.Machine

/-- `best` after the entry `s` at distance `d`: replaced only by a strictly smaller distance (42_codec.md R121). -/
def betterOf (best : Option (Nat × Nat)) (s d : Nat) : Nat × Nat :=
  match best with
  | none => (s, d)
  | some (s', d') => if d < d' then (s, d) else (s', d')

/-- The loop of `Nearest(r)` (42_codec.md R121) over the present entries in ascending order: the symbol and its
distance, `none` when there is no entry. "Exact match short-circuits". -/
def nearestFrom (r : Word) (w : Nat) : List (Nat × Word) → Option (Nat × Nat) → Option (Nat × Nat)
  | [], best => best
  | (s, c) :: rest, best =>
    if hammingDistance r c w = 0 then some (betterOf best s 0)
    else nearestFrom r w rest (some (betterOf best s (hammingDistance r c w)))

/-- `Nearest(r)` over the current table at width `cb_width` (42_codec.md R121). -/
def nearest (s : State) (r : Word) : Option (Nat × Nat) :=
  nearestFrom r s.block.cbWidth.toNat (codebook s) none

/-- ENCODE (42_codec.md R120). A symbol that does not fit `K` bits gets UnknownSymbol (90 C4). -/
def execEncode (symbol : Word) (s : State) : Result :=
  if !s.block.cbSealed then raise .codebookNotReady 0 s
  else if !isSymbol s symbol then raise .unknownSymbol 0 s
  else
    match memRead s.block.lut symbol.toNat with
    | none => raise .unknownSymbol 0 s
    | some codeword => finish codeword 0 s

/-- DECODE (42_codec.md R122). -/
def execDecode (received : Word) (s : State) : Result :=
  if !s.block.cbSealed then raise .codebookNotReady 0 s
  else if !fitsBits s.block.cbWidth.toNat received then raise .invalidValueRange 0 s
  else
    match nearest s received with
    | none => .fault .nearestOfEmptyCodebook
    | some (symbol, distance) => finish (toWord symbol) (toWord distance) s

end Sys2Proof.Machine
end

