-- ==== Sys2Proof/Machine/Channel.lean ====
section
/-! DEFINITION. ChannelSimulator: the flips of one block and CORRUPT (43_channel.md). -/

namespace Sys2Proof.Machine

/-- The flip count of one block: drawn in mode 0, `Mx` and no request in mode 1 (43_channel.md R132, R133). -/
def blockCount (mode : FlipMode) (maxFlips : Nat) (src : Source) : Nat × Source :=
  match mode with
  | .random => rndCount maxFlips src
  | .exact => (maxFlips, src)

/-- The flipped positions of one block as a mask; no request when the count is 0 (43_channel.md R132, R133). -/
def blockPositions (b n : Nat) (src : Source) : Word × Source :=
  if n = 0 then (0, src) else rndPositions b n src

/-- The loop of CORRUPT over its blocks, most significant first (43_channel.md R133). The argument counts the blocks
left; with `r` blocks after it, block `j` is `nb - 1 - j = r`, so position `p` of the block is bit `r * B + p` of the
word (R130), and flipping every position of the set is one exclusive or with the shifted mask. -/
def corruptBlocks (b maxFlips : Nat) (mode : FlipMode) : Nat → Word → Source → Word × Source
  | 0, out, src => (out, src)
  | r + 1, out, src =>
    let count := blockCount mode maxFlips src
    let flips := blockPositions b count.1 count.2
    corruptBlocks b maxFlips mode r (out ^^^ (flips.1 <<< (r * b))) flips.2

/-- CORRUPT (43_channel.md R133). -/
def execCorrupt (width block maxFlips : Nat) (mode : FlipMode) (word : Word) (s : State) : Result :=
  if !widthInRange width then raise .invalidValueRange 0 s
  else if !blockInRange width block then raise .invalidValueRange 0 s
  else if block < maxFlips then raise .invalidValueRange 0 s
  else if !fitsBits width word then raise .invalidValueRange 0 s
  else
    let out := corruptBlocks block maxFlips mode (width / block) word s.source
    finish out.1 (budgetFlag s.block width (width / block) maxFlips) (setSource out.2 s)

end Sys2Proof.Machine
end

