-- ==== Sys2Proof/Machine/Frames.lean ====
section
/-! DEFINITION. ParityFrame: the parity fold, one frame, and FRAME_ENC, FRAME_DEC, VAL12_ENC, VAL12_DEC
(44_parityframe.md). -/

namespace Sys2Proof.Machine

/-- The loop of `Fold(v, p)` with its accumulator (44_parityframe.md R140); `fuel` bounds its turns. -/
def foldLoop (p : Nat) : Nat → Nat → Nat → Nat
  | 0, _, acc => acc
  | fuel + 1, v, acc => if v = 0 then acc else foldLoop p fuel (v >>> p) (acc ^^^ (v &&& (2 ^ p - 1)))

/-- `Fold(v, p)`, the exclusive or of the `p`-bit groups of `v` (44_parityframe.md R140; the default of the
configuration function `Fold`, LOG 7). A value `v` needs at most `v` turns. -/
def fold (v p : Nat) : Nat := foldLoop p v v 0

/-- The checked prefix of variant 0, bits 7 to 3: the marker 1 and the payload (30_encoding.md R71). -/
def prefix0 (n : Nibble) : BitVec 5 := 1#1 ++ n

/-- The checked prefix of variant 1, bits 7 to 2: the marker 1, the payload, the marker 0 (30_encoding.md R72). -/
def prefix1 (n : Nibble) : BitVec 6 := 1#1 ++ n ++ 0#1

/-- `FrameOf(n, variant)` (44_parityframe.md R141). -/
def frameOf (n : Nibble) : Variant → Frame
  | .v0 => prefix0 n ++ BitVec.ofNat 3 (fold (prefix0 n).toNat 3)
  | .v1 => prefix1 n ++ BitVec.ofNat 2 (fold (prefix1 n).toNat 2)

/-- The outcomes of `CheckFrame` (44_parityframe.md R142). -/
inductive FrameOutcome where
  /-- a fixed marker bit is wrong -/
  | structural
  /-- the recomputed parity differs from the trailing bits -/
  | parity
  /-- the frame is valid -/
  | payload (n : Nibble)
  deriving DecidableEq, Repr

/-- Every fixed marker bit of the frame is right (44_parityframe.md R142). -/
def markersOk (f : Frame) : Variant → Bool
  | .v0 => f.getLsbD 7
  | .v1 => f.getLsbD 7 && !f.getLsbD 2

/-- The parity of the checked prefix is the trailing bits (44_parityframe.md R142). -/
def parityOk (f : Frame) : Variant → Bool
  | .v0 => fold (f.extractLsb' 3 5).toNat 3 == (f.extractLsb' 0 3).toNat
  | .v1 => fold (f.extractLsb' 2 6).toNat 2 == (f.extractLsb' 0 2).toNat

/-- `CheckFrame(f, variant)`: "fixed bits checked first" (44_parityframe.md R142). -/
def checkFrame (f : Frame) (variant : Variant) : FrameOutcome :=
  if !markersOk f variant then .structural
  else if !parityOk f variant then .parity
  else .payload (f.extractLsb' 3 4)

/-- FRAME_ENC (44_parityframe.md R144). -/
def execFrameEnc (variant : Variant) (payload : Word) (s : State) : Result :=
  if !fitsBits 4 payload then raise .invalidValueRange 0 s
  else finish ((frameOf (payloadOf payload) variant).setWidth 32) 0 s

/-- FRAME_DEC (44_parityframe.md R145). -/
def execFrameDec (variant : Variant) (frame : Word) (s : State) : Result :=
  if !fitsBits 8 frame then raise .invalidValueRange 0 s
  else
    match checkFrame (frame.setWidth 8) variant with
    | .structural => raise .structuralMismatch 0 s
    | .parity => raise .parityMismatch 0 s
    | .payload n => finish (n.setWidth 32) 0 s

/-- VAL12_ENC (44_parityframe.md R146). -/
def execVal12Enc (value : Word) (s : State) : Result :=
  if !fitsBits 12 value then raise .invalidValueRange 0 s
  else
    finish (packFrames (frameOf (value12Nibble value 0) .v0) (frameOf (value12Nibble value 1) .v0)
      (frameOf (value12Nibble value 2) .v0)) 0 s

/-- The loop of VAL12_DEC (44_parityframe.md R147) over the frames left, with the index of the first of them and the
value joined so far: "fails on the first frame that fails". -/
def joinFrames (s : State) : List Frame → Nat → Word → Result
  | [], _, v => finish v 0 s
  | f :: rest, i, v =>
    match checkFrame f .v0 with
    | .structural => raise .structuralMismatch (toWord i) s
    | .parity => raise .parityMismatch (toWord i) s
    | .payload n => joinFrames s rest (i + 1) ((v <<< 4) ||| n.setWidth 32)

/-- VAL12_DEC (44_parityframe.md R147). -/
def execVal12Dec (frames : Word) (s : State) : Result :=
  if !fitsBits 24 frames then raise .invalidValueRange 0 s
  else joinFrames s [packedFrame frames 0, packedFrame frames 1, packedFrame frames 2] 0 0

end Sys2Proof.Machine
end

