-- ==== Sys2Proof/Machine/Dispatch.lean ====
section
/-! DEFINITION. The dispatch: one arm per constructor of Instr, each a direct call of its meaning. -/

namespace Sys2Proof.Machine

def exec (i : Instr) (s : State) : Host.Outcome State Fault Refusal :=
  match i with
  | .hdist width a b => Sys2Proof.Machine.execHdist width a b s
  | .popcnt x => Sys2Proof.Machine.execPopcnt x s
  | .cbWrite symbol codeword => Sys2Proof.Machine.execCbWrite symbol codeword s
  | .cbVerify width dmin => Sys2Proof.Machine.execCbVerify width dmin s
  | .cbSeal width dmin => Sys2Proof.Machine.execCbSeal width dmin s
  | .cbGen width dmin count => Sys2Proof.Machine.execCbGen width dmin count s
  | .cbStat => Sys2Proof.Machine.execCbStat s
  | .encode symbol => Sys2Proof.Machine.execEncode symbol s
  | .decode received => Sys2Proof.Machine.execDecode received s
  | .corrupt width block maxFlips mode word => Sys2Proof.Machine.execCorrupt width block maxFlips mode word s
  | .frameEnc variant payload => Sys2Proof.Machine.execFrameEnc variant payload s
  | .frameDec variant frame => Sys2Proof.Machine.execFrameDec variant frame s
  | .val12Enc value => Sys2Proof.Machine.execVal12Enc value s
  | .val12Dec frames => Sys2Proof.Machine.execVal12Dec frames s

end Sys2Proof.Machine
end

