-- ==== Sys2Proof/Machine/Step.lean ====
section
/-! DEFINITION. One step of the machine: the host's next move (70_reset_and_hazards.md R188, R189). -/

namespace Sys2Proof.Machine

/-- One step. A command is decoded and executed (30_encoding.md R65) or refused as illegal (R66); a reset, between
commands or during one, resets the block (70_reset_and_hazards.md R180, R181); after the last move "the block holds its
state and does nothing" (60_exceptions.md R173; LOG 8). -/
def step (s : State) : Host.Outcome State Fault Refusal :=
  match nextMove s with
  | none => .next s
  | some .reset => .next (resetBlock s)
  | some (.resetDuring _) => .next (resetBlock s)
  | some (.command c) =>
    match decodeCommand c with
    | .instr i => exec i s
    | .illegalCommand => illegalCommand s

/-- The state with the command whose bits are `w` as the host's next move (spec/opcode_table.json's numbering;
30_encoding.md R60). -/
def State.withFetchWord (s : State) (nbits w : Nat) : State :=
  { s with program := placeMove (.command (tableCommand nbits w)) s.program s.pc }

end Sys2Proof.Machine
end

