-- ==== Sys2Proof/Safety.lean ====
section
/-! DEFINITION. What claims are stated with: the invariant of the block's state (10_state.md R24, R26, R27), the end and
the result of a run (70_reset_and_hazards.md R189). -/

namespace Sys2Proof.Machine

/-- The parameter K within its bounds (00_scope.md R6). -/
def State.KOk (s : State) : Prop := 1 ≤ s.k ∧ s.k ≤ 5

/-- The table is in canonical form and holds entries of the symbol space only (10_state.md R26, 20_memory.md R40). -/
def State.TableOk (s : State) : Prop :=
  Memory.wf s.block.lut = true ∧ ∀ a v, memRead s.block.lut a = some v → a < symbolCount s

/-- "0 while `cb_sealed == 0`" for the width and the minimum distance (10_state.md R24). -/
def State.OpenOk (s : State) : Prop :=
  s.block.cbSealed = false → s.block.cbWidth = 0 ∧ s.block.cbDmin = 0

/-- The invariant of the sealed state: a legal width (10_state.md R24), a present entry, every entry below
`2^cb_width`, every two distinct present symbols at distance `cb_dmin` or more (10_state.md R27). -/
def State.SealedOk (s : State) : Prop :=
  s.block.cbSealed = true →
    (1 ≤ s.block.cbWidth.toNat ∧ s.block.cbWidth.toNat ≤ 32) ∧
    (∃ a v, memRead s.block.lut a = some v) ∧
    (∀ a v, memRead s.block.lut a = some v → v.toNat < 2 ^ s.block.cbWidth.toNat) ∧
    (∀ a b v w, memRead s.block.lut a = some v → memRead s.block.lut b = some w → a ≠ b →
      s.block.cbDmin.toNat ≤ hammingDistance v w s.block.cbWidth.toNat)

/-- The invariant that reset establishes and every step keeps. -/
structure State.Inv (s : State) : Prop where
  k : s.KOk
  table : s.TableOk
  opened : s.OpenOk
  sealed : s.SealedOk

/-- The run has ended: the index has reached the length of the list (10_state.md R22, 70_reset_and_hazards.md R189). -/
def State.ended (s : State) : Prop := s.program.length ≤ s.pc

/-- The result of a run: the responses and the final state of the block (70_reset_and_hazards.md R189). -/
def State.result (s : State) : List Response × Block := (s.responses, s.block)

/-- Every response of the run is OK: what "a claim that wants error-free runs states" (60_exceptions.md R166). -/
def State.errorFree (s : State) : Prop := ∀ r ∈ s.responses, r.st = .ok

/-! ## What a command answers -/

/-- From `s` to `t` the command got exactly one response, this one; the host's index moved on by one, and the host's list
and the parameter K are as before (30_encoding.md R64, 10_state.md R22). -/
def Answered (s t : State) (st : Status) (r0 r1 : Word) : Prop :=
  t.responses = s.responses ++ [{ st := st, r0 := r0, r1 := r1 }] ∧ t.pc = s.pc + 1 ∧
    t.program = s.program ∧ t.k = s.k

/-- The block's state and the random source are exactly as before (60_exceptions.md R163). -/
def Untouched (s t : State) : Prop := t.block = s.block ∧ t.source = s.source

/-- The command completes with this response and changes nothing else. -/
def AnswersAndKeeps (i : Instr) (s : State) (st : Status) (r0 r1 : Word) : Prop :=
  ∃ t, exec i s = .next t ∧ Answered s t st r0 r1 ∧ Untouched s t

/-- The command fails with this error and information: `raise E(info)` (60_exceptions.md R163). -/
def Fails (i : Instr) (s : State) (e : ErrorStatus) (info : Word) : Prop :=
  AnswersAndKeeps i s (.error e) 0 info

/-- Some symbol below `2^K` is present (42_codec.md R121, 10_state.md R27). -/
def HasEntry (s : State) : Prop := ∃ a v, a < 2 ^ s.k ∧ memRead s.block.lut a = some v

/-- Symbol `a` is present with codeword `v` (10_state.md R25, R26). -/
def Holds (s : State) (a : Nat) (v : Word) : Prop := a < 2 ^ s.k ∧ memRead s.block.lut a = some v

/-- The operands of CORRUPT are within their ranges (43_channel.md R133, 30_encoding.md R63). -/
def CorruptLegal (width block maxFlips : Nat) (word : Word) : Prop :=
  (1 ≤ width ∧ width ≤ 32) ∧ (1 ≤ block ∧ block ≤ width ∧ width % block = 0) ∧ maxFlips ≤ block ∧
    word.toNat < 2 ^ width

/-- The flips of one block that a setting allows: at most `Mx` in mode 0, exactly `Mx` in mode 1 (43_channel.md R134). -/
def FlipsOk : FlipMode → Nat → Nat → Prop
  | .random, maxFlips, n => n ≤ maxFlips
  | .exact, maxFlips, n => n = maxFlips

/-- The counts among the draws of one CORRUPT, one pair of count and set per block: none is drawn in mode 1 (43_channel.md
R132). -/
def drawnCounts : FlipMode → List (Nat × Word) → List Nat
  | .random, draws => draws.map Prod.fst
  | .exact, _ => []

/-- The sets among the draws of one CORRUPT: none is drawn for a count of 0 (43_channel.md R132). -/
def drawnSets (draws : List (Nat × Word)) : List Word := (draws.map Prod.snd).filter fun set => set != 0

/-- The requests of one block with this draw, in their order (43_channel.md R132). -/
def drawRequests (mode : FlipMode) (block maxFlips : Nat) (draw : Nat × Word) : List SourceRequest :=
  (if mode = .random then [.count maxFlips] else []) ++ (if draw.1 = 0 then [] else [.positions block draw.1])

/-- The requests of one CORRUPT in mode 0 whose blocks draw these counts, block 0 first: for each block a count, and then, only
when the count is not 0, that many positions (43_channel.md R132). -/
def randomRequests (block maxFlips : Nat) (counts : List Nat) : List SourceRequest :=
  counts.flatMap fun n => if n = 0 then [.count maxFlips] else [.count maxFlips, .positions block n]

/-- The fixed bits of a frame byte are right (30_encoding.md R71, R72). -/
def MarkersRight : Variant → Word → Prop
  | .v0, f => f.getLsbD 7 = true
  | .v1, f => f.getLsbD 7 = true ∧ f.getLsbD 2 = false

/-- The parity bits of a frame byte are those of the table of 44_parityframe.md R140. -/
def ParityRight : Variant → Word → Prop
  | .v0, f => f.getLsbD 2 = f.getLsbD 5 ∧ f.getLsbD 1 = (f.getLsbD 4 ^^ f.getLsbD 7) ∧
      f.getLsbD 0 = (f.getLsbD 3 ^^ f.getLsbD 6)
  | .v1, f => f.getLsbD 1 = (f.getLsbD 3 ^^ f.getLsbD 5 ^^ f.getLsbD 7) ∧
      f.getLsbD 0 = (f.getLsbD 2 ^^ f.getLsbD 4 ^^ f.getLsbD 6)

/-- The pairs of bits whose flip no frame check sees: a payload bit with the parity bit it feeds, or two payload bits that feed
one parity bit (44_parityframe.md R149). -/
def undetectedPairs : Variant → List (Nat × Nat)
  | .v0 => [(3, 0), (6, 0), (4, 1), (5, 2), (6, 3)]
  | .v1 => [(4, 0), (6, 0), (3, 1), (5, 1), (6, 4), (5, 3)]

/-- The table of 60_exceptions.md R161: the error statuses that a command can answer. -/
def mayAnswer : Instr → ErrorStatus → Bool
  | .hdist _ _ _, _ => false
  | .popcnt _, _ => false
  | .cbWrite _ _, e => e == .codebookLocked || e == .invalidValueRange
  | .cbVerify _ _, e => e == .invalidValueRange
  | .cbSeal _ _, e => e == .codebookLocked || e == .invalidValueRange || e == .invalidCodebook
  | .cbGen _ _ _, e => e == .codebookLocked || e == .invalidValueRange || e == .codebookExhausted
  | .cbStat, _ => false
  | .encode _, e => e == .codebookNotReady || e == .unknownSymbol
  | .decode _, e => e == .codebookNotReady || e == .invalidValueRange
  | .corrupt _ _ _ _ _, e => e == .invalidValueRange
  | .frameEnc _ _, e => e == .invalidValueRange
  | .frameDec _ _, e => e == .invalidValueRange || e == .structuralMismatch || e == .parityMismatch
  | .val12Enc _, e => e == .invalidValueRange
  | .val12Dec _, e => e == .invalidValueRange || e == .structuralMismatch || e == .parityMismatch

end Sys2Proof.Machine
end

