-- ==== Sys2Proof/Certificates/Slice0/Obligations.lean ====
section
/-! DEFINITION. The statements for the provers, written from the numbered rules of spec/. -/

open Sys2Proof Sys2Proof.Machine

/-! ## Encoding and decoding (30_encoding.md) -/

/-- The decoder reads every well-formed instruction back from the words the encoder gives it. -/
def Obligations.DecodeEncodeRoundTrip : Prop :=
  ∀ i : Instr, i.wellFormed = true → decodeCommand (encodeCommand i) = .instr i

/-- What the decoder reads is well-formed, and encoding it gives the control word back: no bit of a legal control word
is dropped or misread. -/
def Obligations.DecodedInstructionKeepsItsControlWord : Prop :=
  ∀ (c : Command) (i : Instr), decodeCommand c = .instr i →
    i.wellFormed = true ∧ (encodeCommand i).cw = c.cw ∧ decodeCommand (encodeCommand i) = .instr i

/-- R65. The decoder returns the row that the control word selects, ILLEGAL when there is none; no two rows match the same
control word; the data words never take part in the selection. -/
def Obligations.ExactlyOneRowOrIllegal : Prop :=
  (∀ (c : Command) (row : OpcodeRow), row ∈ opcodeRows → row.selects c.cw = true →
    decodeCommand c = .instr (row.operands c)) ∧
  (∀ c : Command, (∀ row ∈ opcodeRows, row.selects c.cw = false) → decodeCommand c = .illegalCommand) ∧
  (∀ (cw : Word) (row row' : OpcodeRow), row ∈ opcodeRows → row' ∈ opcodeRows → row.selects cw = true →
    row'.selects cw = true → row = row')

/-- R66. A control word is illegal exactly when its opcode is 0x00 or 0x0F to 0x1F, a bit of `Z` is set, or a field that
the opcode does not use is not 0; the block then answers IllegalCommand with both result words 0, changes no state and
sends no request. -/
def Obligations.IllegalCommandsAreRefused : Prop :=
  (∀ c : Command,
    let op := (c.cw.extractLsb' 27 5).toNat
    decodeCommand c = .illegalCommand ↔
      op = 0 ∨ 15 ≤ op ∨ (c.cw.extractLsb' 0 7).toNat ≠ 0 ∨
      (fieldF1 c.cw ≠ 0 ∧ op ∉ [1, 4, 5, 6, 10]) ∨
      (fieldF2 c.cw ≠ 0 ∧ op ∉ [4, 5, 6, 10]) ∨
      (fieldF3 c.cw ≠ 0 ∧ op ∉ [6, 10]) ∨
      (c.cw.getLsbD 8 = true ∧ op ≠ 10) ∨
      (c.cw.getLsbD 7 = true ∧ op ∉ [11, 12])) ∧
  (∀ (s : State) (c : Command), s.program[s.pc]? = some (.command c) → decodeCommand c = .illegalCommand →
    ∃ t, step s = .next t ∧ Answered s t (.error .illegalCommand) 0 0 ∧ Untouched s t)

/-- A data word that a command has no use for is ignored, whatever it holds (30_encoding.md R60, R63). -/
def Obligations.UnusedDataWordsAreIgnored : Prop :=
  ∀ (cw da db da' db' : Word) (i : Instr), decodeCommand ⟨cw, da, db⟩ = .instr i →
    ((∀ w a b, i ≠ .hdist w a b) → (∀ a b, i ≠ .cbWrite a b) → decodeCommand ⟨cw, da, db'⟩ = .instr i) ∧
    (((∃ w d, i = .cbVerify w d) ∨ (∃ w d, i = .cbSeal w d) ∨ (∃ w d n, i = .cbGen w d n) ∨ i = .cbStat) →
      decodeCommand ⟨cw, da', db'⟩ = .instr i)

/-- Words written out from the table of 30_encoding.md R62, one or more for each family, decode to the commands they stand
for. -/
def Obligations.SampleWordsDecodeAsTheTableSays : Prop :=
  decodeCommand ⟨0x09000000, 0xCCCCCCCC, 0x33333333⟩ = .instr (.hdist 8 0xCCCCCCCC 0x33333333) ∧
  decodeCommand ⟨0x30A18800, 0, 0⟩ = .instr (.cbGen 5 3 4) ∧
  decodeCommand ⟨0x48000000, 0x2D2D, 0⟩ = .instr (.decode 0x2D2D) ∧
  decodeCommand ⟨0x52040300, 0x2AAA, 0⟩ = .instr (.corrupt 16 8 1 .exact 0x2AAA) ∧
  decodeCommand ⟨0x60000080, 0x99, 0⟩ = .instr (.frameDec .v1 0x99) ∧
  decodeCommand ⟨0x51040080, 0, 0⟩ = .illegalCommand

/-! ## The step (10_state.md R22, 70_reset_and_hazards.md) -/

/-- When the host's next move is a command that decodes to an instruction, the step is that instruction's execution and
nothing around it. -/
def Obligations.StepRunsTheDecodedInstruction : Prop :=
  ∀ (s : State) (c : Command) (i : Instr), s.program[s.pc]? = some (.command c) → decodeCommand c = .instr i →
    step s = exec i s

/-- After reset the control fields are 0 and no entry is present (10_state.md R29); a reset during a command gives no response
and leaves the same state of the block (70_reset_and_hazards.md R181). The rest is the model's choice: that a reset is one move
of the host's list, which moves the index on and keeps the list, the responses and K (LOG 1, LOG 3), and that it leaves the
random source as it was, also during a command (LOG 11). -/
def Obligations.ResetLeavesNoCodebook : Prop :=
  ∀ (s : State) (m : HostMove), s.program[s.pc]? = some m → (m = .reset ∨ ∃ c, m = .resetDuring c) →
    ∃ t, step s = .next t ∧
      t.block.cbSealed = false ∧ t.block.cbWidth = 0 ∧ t.block.cbDmin = 0 ∧
      (∀ a, isPresent t a = false) ∧ (∀ a, memRead t.block.lut a = none) ∧
      t.responses = s.responses ∧ t.pc = s.pc + 1 ∧ t.program = s.program ∧ t.source = s.source ∧ t.k = s.k

/-- The machine of State.reset is the block after reset (R29) with the index at 0 (R22). -/
def Obligations.PowerOnStateIsTheResetState : Prop :=
  State.reset.block.cbSealed = false ∧ State.reset.block.cbWidth = 0 ∧ State.reset.block.cbDmin = 0 ∧
    (∀ a, memRead State.reset.block.lut a = none) ∧ State.reset.pc = 0

/-- With no command presented the block holds its state and does nothing (60_exceptions.md R173); the model's choice for
the end of the list is LOG 8. -/
def Obligations.BlockHoldsItsStateAfterTheLastMove : Prop :=
  ∀ s : State, s.program.length ≤ s.pc → step s = .next s

/-- The state after reset meets the invariant. -/
def Obligations.ResetStateMeetsTheInvariant : Prop := State.reset.Inv

/-- Every step from every state that meets the invariant leads to a state that meets it: the table stays canonical and
within the symbol space, the open phase keeps its zeros, and the sealed phase keeps the codebook invariant R27. -/
def Obligations.EveryStepKeepsTheInvariant : Prop :=
  ∀ s t : State, s.Inv → step s = .next t → t.Inv

/-- Every step from a state that meets the invariant answers a next state: no command of any run stops the machine. -/
def Obligations.EveryStepAnswers : Prop :=
  ∀ s : State, s.Inv → ∃ t, step s = .next t

/-- No instruction is refused, and the one fault is that of DECODE over a sealed codebook with no present entry (42_codec.md
R121; LOG 9). -/
def Obligations.TheOnlyStopIsAnEmptySealedCodebook : Prop :=
  ∀ (i : Instr) (s : State),
    (∀ r, exec i s ≠ .refused r) ∧
    (∀ f, exec i s = .fault f ↔ f = .nearestOfEmptyCodebook ∧ s.block.cbSealed = true ∧ ¬ HasEntry s ∧
      ∃ r, i = .decode r ∧ r.toNat < 2 ^ s.block.cbWidth.toNat)

/-- Every command that is answered gets exactly one response, and the host's index, list and K are as R22 and R53 say. -/
def Obligations.EveryCommandGetsOneResponse : Prop :=
  ∀ (s t : State) (c : Command), s.program[s.pc]? = some (.command c) → step s = .next t →
    ∃ r : Response, Answered s t r.st r.r0 r.r1

/-! ## Whole-machine rules -/

/-- R163. A command that ends in an error status has `R0 = 0` and leaves the block and the random source exactly as
before. -/
def Obligations.FailingCommandChangesNothing : Prop :=
  ∀ (i : Instr) (s t : State) (e : ErrorStatus) (r0 r1 : Word), exec i s = .next t →
    t.responses = s.responses ++ [{ st := .error e, r0 := r0, r1 := r1 }] → r0 = 0 ∧ Untouched s t

/-- R161. A status that the table does not list for a command is never its answer, and no command that decodes answers
IllegalCommand. -/
def Obligations.StatusesAreThoseOfTheTable : Prop :=
  ∀ (i : Instr) (s t : State) (e : ErrorStatus) (r0 r1 : Word), exec i s = .next t →
    t.responses = s.responses ++ [{ st := .error e, r0 := r0, r1 := r1 }] → mayAnswer i e = true

/-- In the sealed phase no instruction changes the block's state: the table, the present bits, the width and the minimum
distance are constant (41_codebook.md R100). -/
def Obligations.SealedCodebookNeverChanges : Prop :=
  ∀ (i : Instr) (s t : State), s.block.cbSealed = true → exec i s = .next t → t.block = s.block

/-- Only a reset leaves the sealed phase (10_state.md R24, 70_reset_and_hazards.md R180). -/
def Obligations.OnlyResetUnseals : Prop :=
  ∀ s t : State, s.block.cbSealed = true → step s = .next t → t.block ≠ s.block →
    t.block = Block.reset ∧
      (s.program[s.pc]? = some .reset ∨ ∃ c, s.program[s.pc]? = some (.resetDuring c))

/-- R42, R24. The table changes only by CB_WRITE and CB_GEN, the control fields only by CB_SEAL and CB_GEN, and the random
source only by CORRUPT. -/
def Obligations.WhoWritesWhichState : Prop :=
  ∀ (i : Instr) (s t : State), exec i s = .next t →
    (t.block.lut ≠ s.block.lut → (∃ a v, i = .cbWrite a v) ∨ ∃ w d n, i = .cbGen w d n) ∧
    ((t.block.cbSealed ≠ s.block.cbSealed ∨ t.block.cbWidth ≠ s.block.cbWidth ∨ t.block.cbDmin ≠ s.block.cbDmin) →
      (∃ w d, i = .cbSeal w d) ∨ ∃ w d n, i = .cbGen w d n) ∧
    (t.source ≠ s.source → ∃ w b m mode x, i = .corrupt w b m mode x)

/-- What a command answers and does depends on the block, K and the random source alone, never on the index, the list of
moves or an earlier response (10_state.md R20, R22, R28). -/
def Obligations.AnswersDependOnBlockAndSourceOnly : Prop :=
  ∀ (i : Instr) (s s' t : State), s'.k = s.k → s'.block = s.block → s'.source = s.source → exec i s = .next t →
    ∃ t' r, exec i s' = .next t' ∧ t'.block = t.block ∧ t'.source = t.source ∧
      t.responses = s.responses ++ [r] ∧ t'.responses = s'.responses ++ [r]

/-- Every command but CORRUPT answers the same whatever the random source holds (00_scope.md R8, 10_state.md R28). -/
def Obligations.OnlyCorruptReadsTheSource : Prop :=
  ∀ (i : Instr) (s t : State) (src : Source), (∀ w b m mode x, i ≠ .corrupt w b m mode x) → exec i s = .next t →
    ∃ t', exec i (setSource src s) = .next t' ∧ t'.block = t.block ∧ t'.source = src ∧
      t'.responses = t.responses ∧ t'.pc = t.pc

/-! ## BitMetric (40_bitmetric.md) -/

/-- R92. HDIST answers the count of the bit positions below `width` at which `a` and `b` differ, for every width; its control
word is `0x08000000 | (width << 21)`. -/
def Obligations.HdistCountsTheDifferingBits : Prop :=
  ∀ (width : Nat) (a b : Word) (s : State), width < 64 →
    encodeCommand (.hdist width a b) = ⟨0x08000000 ||| (BitVec.ofNat 32 width <<< 21), a, b⟩ ∧
    ∃ r0, AnswersAndKeeps (.hdist width a b) s .ok r0 0 ∧
      r0.toNat = ((List.range (min width 32)).filter fun i => a.getLsbD i != b.getLsbD i).length

/-- R93. POPCNT answers the number of set bits of the whole data word; its control word is `0x10000000`. -/
def Obligations.PopcntCountsTheSetBits : Prop :=
  ∀ (x : Word) (s : State), encodeCommand (.popcnt x) = ⟨0x10000000, x, 0⟩ ∧
    ∃ r0, AnswersAndKeeps (.popcnt x) s .ok r0 0 ∧ r0.toNat = ((List.range 32).filter fun i => x.getLsbD i).length

/-- R91. The distance is the count of differing bits across the width: nothing to compare at width 0, nothing more to compare
from width 32 on, and never more than `min(w, 32)`. -/
def Obligations.HammingDistanceCorners : Prop :=
  ∀ (a b : Word) (w : Nat),
    hammingDistance a b w = ((List.range (min w 32)).filter fun i => a.getLsbD i != b.getLsbD i).length ∧
    hammingDistance a b 0 = 0 ∧ (32 ≤ w → hammingDistance a b w = hammingDistance a b 32) ∧
    hammingDistance a b w ≤ min w 32

/-- R95. The five laws of the distance. -/
def Obligations.HammingDistanceLaws : Prop :=
  ∀ (a b c m : Word) (w : Nat),
    hammingDistance a a w = 0 ∧
    (w ≤ 32 → a.toNat < 2 ^ w → b.toNat < 2 ^ w → (hammingDistance a b w = 0 ↔ a = b)) ∧
    hammingDistance a b w = hammingDistance b a w ∧
    hammingDistance a c w ≤ hammingDistance a b w + hammingDistance b c w ∧
    hammingDistance (a ^^^ m) a w = popcount (m &&& lowMask w)

/-! ## CodebookBuilder (41_codebook.md) -/

/-- R102. CB_WRITE in the open phase stores the codeword under the symbol, sets its present bit and leaves every other
entry, the control fields and the source alone; sealed it answers CodebookLocked, and for a symbol that does not fit `K`
bits InvalidValueRange. Its control word is `0x18000000`. -/
def Obligations.CbWriteStoresOneRow : Prop :=
  ∀ (symbol codeword : Word) (s : State),
    encodeCommand (.cbWrite symbol codeword) = ⟨0x18000000, symbol, codeword⟩ ∧
    (s.block.cbSealed = false → symbol.toNat < 2 ^ s.k →
      ∃ t, exec (.cbWrite symbol codeword) s = .next t ∧ Answered s t .ok 0 0 ∧
        memRead t.block.lut symbol.toNat = some codeword ∧ isPresent t symbol.toNat = true ∧
        (∀ a, a ≠ symbol.toNat → memRead t.block.lut a = memRead s.block.lut a) ∧
        t.block.cbSealed = s.block.cbSealed ∧ t.block.cbWidth = s.block.cbWidth ∧
        t.block.cbDmin = s.block.cbDmin ∧ t.source = s.source) ∧
    (s.block.cbSealed = true → Fails (.cbWrite symbol codeword) s .codebookLocked 0) ∧
    (s.block.cbSealed = false → 2 ^ s.k ≤ symbol.toNat → Fails (.cbWrite symbol codeword) s .invalidValueRange 0)

/-- R101. Verify returns the lowest present symbol whose entry does not fit; else the first pair, ascending `i` then
ascending `j`, nearer than the minimum distance; else Pass. -/
def Obligations.VerifyFindsTheFirstDefect : Prop :=
  ∀ (s : State) (w d : Nat),
    (∀ a, verify s w d = .tooWide a ↔ ∃ v, Holds s a v ∧ 2 ^ w ≤ v.toNat ∧
      ∀ b u, Holds s b u → b < a → u.toNat < 2 ^ w) ∧
    (∀ i j, verify s w d = .violation i j ↔
      (∀ b u, Holds s b u → u.toNat < 2 ^ w) ∧ i < j ∧
      (∃ u v, Holds s i u ∧ Holds s j v ∧ hammingDistance u v w < d) ∧
      ∀ i' j' u v, Holds s i' u → Holds s j' v → i' < j' → (i' < i ∨ i' = i ∧ j' < j) →
        d ≤ hammingDistance u v w) ∧
    (verify s w d = .pass ↔ (∀ b u, Holds s b u → u.toNat < 2 ^ w) ∧
      ∀ i j u v, Holds s i u → Holds s j v → i < j → d ≤ hammingDistance u v w)

/-- R103. CB_VERIFY answers what Verify finds, in either phase, and changes nothing; its control word is
`0x20000000 | (W << 21) | (D_min << 15)`. -/
def Obligations.CbVerifyReportsTheVerification : Prop :=
  ∀ (w d : Nat) (s : State), w < 64 → d < 64 → s.KOk →
    encodeCommand (.cbVerify w d) = ⟨0x20000000 ||| (BitVec.ofNat 32 w <<< 21) ||| (BitVec.ofNat 32 d <<< 15), 0, 0⟩ ∧
    (w < 1 ∨ 32 < w → Fails (.cbVerify w d) s .invalidValueRange 0) ∧
    (1 ≤ w → w ≤ 32 →
      (∀ a, verify s w d = .tooWide a → Fails (.cbVerify w d) s .invalidValueRange (BitVec.ofNat 32 a)) ∧
      (∀ i j, verify s w d = .violation i j →
        ∃ r1, AnswersAndKeeps (.cbVerify w d) s .ok 0 r1 ∧ r1.toNat = i * 256 + j) ∧
      (verify s w d = .pass → AnswersAndKeeps (.cbVerify w d) s .ok 1 0))

/-- R104. CB_SEAL: the checks in their order, and on Pass the codebook is frozen with its width and minimum distance, the
number of entries in `R0`, the table untouched. Its control word is `0x28000000 | (W << 21) | (D_min << 15)`. -/
def Obligations.CbSealVerifiesAndFreezes : Prop :=
  ∀ (w d : Nat) (s : State), w < 64 → d < 64 → s.KOk →
    encodeCommand (.cbSeal w d) = ⟨0x28000000 ||| (BitVec.ofNat 32 w <<< 21) ||| (BitVec.ofNat 32 d <<< 15), 0, 0⟩ ∧
    (s.block.cbSealed = true → Fails (.cbSeal w d) s .codebookLocked 0) ∧
    (s.block.cbSealed = false →
      (w < 1 ∨ 32 < w → Fails (.cbSeal w d) s .invalidValueRange 0) ∧
      (1 ≤ w → w ≤ 32 →
        (¬ HasEntry s → Fails (.cbSeal w d) s .invalidCodebook 0) ∧
        (HasEntry s →
          (∀ a, verify s w d = .tooWide a → Fails (.cbSeal w d) s .invalidValueRange (BitVec.ofNat 32 a)) ∧
          (∀ i j, verify s w d = .violation i j →
            ∃ r1, Fails (.cbSeal w d) s .invalidCodebook r1 ∧ r1.toNat = i * 256 + j) ∧
          (verify s w d = .pass → ∃ t r0, exec (.cbSeal w d) s = .next t ∧ Answered s t .ok r0 0 ∧
            r0.toNat = ((List.range (2 ^ s.k)).filter fun a => isPresent s a).length ∧
            t.block.cbSealed = true ∧ t.block.cbWidth.toNat = w ∧ t.block.cbDmin.toNat = d ∧
            t.block.lut = s.block.lut ∧ t.source = s.source))))

/-- R105. What Greedy finds: `n` codewords below `2^w` in strictly ascending order, every two at distance `d` or more, and
every smaller candidate left out is too near an accepted codeword below it; Exhausted only when the same search over the
whole space accepts fewer than `n`. -/
def Obligations.GreedyAcceptsExactlyTheFarCandidates : Prop :=
  ∀ n w d : Nat, 1 ≤ n → w ≤ 32 →
    (∀ acc, greedy n w d = some acc →
      acc.length = n ∧ acc.Pairwise (fun a b => a.toNat < b.toNat) ∧ (∀ a ∈ acc, a.toNat < 2 ^ w) ∧
      acc.Pairwise (fun a b => d ≤ hammingDistance a b w) ∧
      ∀ c : Word, (∃ b ∈ acc, c.toNat < b.toNat) → c ∉ acc →
        ∃ a ∈ acc, a.toNat < c.toNat ∧ hammingDistance c a w < d) ∧
    (greedy n w d = none → ∃ acc : List Word,
      acc.length < n ∧ acc.Pairwise (fun a b => a.toNat < b.toNat) ∧ (∀ a ∈ acc, a.toNat < 2 ^ w) ∧
      acc.Pairwise (fun a b => d ≤ hammingDistance a b w) ∧
      ∀ c : Word, c.toNat < 2 ^ w → c ∉ acc → ∃ a ∈ acc, a.toNat < c.toNat ∧ hammingDistance c a w < d)

/-- R106. CB_GEN: the checks in their order; when the search is exhausted CodebookExhausted and no change; when it finds its
codewords they become the table, symbol by symbol, every other present bit is cleared, and the codebook is sealed. Its control
word is `0x30000000 | (W << 21) | (D_min << 15) | (N << 9)`. -/
def Obligations.CbGenBuildsAndFreezes : Prop :=
  ∀ (w d n : Nat) (s : State), w < 64 → d < 64 → n < 64 →
    encodeCommand (.cbGen w d n) = ⟨0x30000000 ||| (BitVec.ofNat 32 w <<< 21) ||| (BitVec.ofNat 32 d <<< 15) |||
      (BitVec.ofNat 32 n <<< 9), 0, 0⟩ ∧
    (s.block.cbSealed = true → Fails (.cbGen w d n) s .codebookLocked 0) ∧
    (s.block.cbSealed = false →
      (w < 1 ∨ 32 < w → Fails (.cbGen w d n) s .invalidValueRange 0) ∧
      (1 ≤ w → w ≤ 32 →
        (n < 1 ∨ 2 ^ s.k < n → Fails (.cbGen w d n) s .invalidValueRange 0) ∧
        (1 ≤ n → n ≤ 2 ^ s.k →
          (greedy n w d = none → Fails (.cbGen w d n) s .codebookExhausted 0) ∧
          (∀ acc, greedy n w d = some acc →
            ∃ t, exec (.cbGen w d n) s = .next t ∧ Answered s t .ok (BitVec.ofNat 32 n) 0 ∧
              (∀ a, memRead t.block.lut a = acc[a]?) ∧ (∀ a, isPresent t a = decide (a < n)) ∧
              t.block.cbSealed = true ∧ t.block.cbWidth.toNat = w ∧ t.block.cbDmin.toNat = d ∧
              t.source = s.source))))

/-- The table after an OK CB_GEN depends only on the command's fields (41_codebook.md R107, item 1). -/
def Obligations.GenerationIsDeterministic : Prop :=
  ∀ (w d n : Nat) (s s' t t' : State), exec (.cbGen w d n) s = .next t → exec (.cbGen w d n) s' = .next t' →
    (∃ r0, Answered s t .ok r0 0) → (∃ r0, Answered s' t' .ok r0 0) → t.block = t'.block

/-- After an OK CB_GEN the table passes the verification with the command's own width and distance (41_codebook.md R107,
item 2). -/
def Obligations.GeneratedCodebookPassesItsVerification : Prop :=
  ∀ (w d n : Nat) (s t : State) (r0 : Word), exec (.cbGen w d n) s = .next t → Answered s t .ok r0 0 →
    verify t w d = .pass

/-- `Greedy(N, W, D)` is the first `N` elements of `Greedy(N', W, D)` for every `N' >= N` for which the latter is found
(41_codebook.md R107, item 3). -/
def Obligations.GreedyPrefixProperty : Prop :=
  ∀ (n n' w d : Nat) (acc : List Word), 1 ≤ n → n ≤ n' → greedy n' w d = some acc →
    greedy n w d = some (acc.take n)

/-- R108. CB_STAT answers the control fields, the number of present entries and the present mask; its control word is
`0x38000000`. -/
def Obligations.CbStatReportsTheControlFields : Prop :=
  ∀ s : State, s.KOk → encodeCommand .cbStat = ⟨0x38000000, 0, 0⟩ ∧ ∃ r0 r1, AnswersAndKeeps .cbStat s .ok r0 r1 ∧
    r0.getLsbD 0 = s.block.cbSealed ∧ r0.extractLsb' 8 6 = s.block.cbWidth ∧ r0.extractLsb' 16 6 = s.block.cbDmin ∧
    (r0.extractLsb' 24 6).toNat = ((List.range (2 ^ s.k)).filter fun a => isPresent s a).length ∧
    r0.extractLsb' 1 7 = 0 ∧ r0.extractLsb' 14 2 = 0 ∧ r0.extractLsb' 22 2 = 0 ∧ r0.extractLsb' 30 2 = 0 ∧
    ∀ a, r1.getLsbD a = (decide (a < 2 ^ s.k) && isPresent s a)

/-! ## CodewordCodec (42_codec.md) -/

/-- R120. ENCODE answers the codeword of a present symbol of a sealed codebook, CodebookNotReady in the open phase and
UnknownSymbol for a symbol outside the domain. Its control word is `0x40000000`. -/
def Obligations.EncodeLooksTheSymbolUp : Prop :=
  ∀ (symbol : Word) (s : State),
    encodeCommand (.encode symbol) = ⟨0x40000000, symbol, 0⟩ ∧
    (s.block.cbSealed = false → Fails (.encode symbol) s .codebookNotReady 0) ∧
    (s.block.cbSealed = true →
      (2 ^ s.k ≤ symbol.toNat ∨ isPresent s symbol.toNat = false → Fails (.encode symbol) s .unknownSymbol 0) ∧
      (∀ codeword, Holds s symbol.toNat codeword → AnswersAndKeeps (.encode symbol) s .ok codeword 0))

/-- R122, R121. DECODE on a sealed codebook answers the present symbol nearest to the received word, the lowest one among
ties, and its distance; CodebookNotReady in the open phase and InvalidValueRange for a word wider than the codebook. Its
control word is `0x48000000`. -/
def Obligations.DecodeAnswersTheNearestSymbol : Prop :=
  ∀ (r : Word) (s : State), s.KOk →
    encodeCommand (.decode r) = ⟨0x48000000, r, 0⟩ ∧
    (s.block.cbSealed = false → Fails (.decode r) s .codebookNotReady 0) ∧
    (s.block.cbSealed = true →
      (2 ^ s.block.cbWidth.toNat ≤ r.toNat → Fails (.decode r) s .invalidValueRange 0) ∧
      (r.toNat < 2 ^ s.block.cbWidth.toNat → HasEntry s →
        ∃ r0 r1 codeword, AnswersAndKeeps (.decode r) s .ok r0 r1 ∧ Holds s r0.toNat codeword ∧
          r1.toNat = hammingDistance r codeword s.block.cbWidth.toNat ∧
          ∀ b u, Holds s b u →
            r1.toNat ≤ hammingDistance r u s.block.cbWidth.toNat ∧
            (hammingDistance r u s.block.cbWidth.toNat = r1.toNat → r0.toNat ≤ b)))

/-- R123. On a sealed codebook with minimum distance 1 or more, ENCODE of a present symbol and DECODE of its answer give the
symbol back at distance 0. -/
def Obligations.RoundTripWithoutNoise : Prop :=
  ∀ (s : State) (a : Nat) (c : Word), s.Inv → s.block.cbSealed = true → 1 ≤ s.block.cbDmin.toNat →
    memRead s.block.lut a = some c →
    AnswersAndKeeps (.encode (BitVec.ofNat 32 a)) s .ok c 0 ∧ AnswersAndKeeps (.decode c) s .ok (BitVec.ofNat 32 a) 0

/-- R124. A word at distance `e` from the codeword of a present symbol, `2 * e < cb_dmin`, decodes to that symbol at
distance `e`. -/
def Obligations.DecoderCorrectsBelowHalfTheDistance : Prop :=
  ∀ (s : State) (a : Nat) (c r : Word), s.Inv → s.block.cbSealed = true → memRead s.block.lut a = some c →
    r.toNat < 2 ^ s.block.cbWidth.toNat →
    2 * hammingDistance r c s.block.cbWidth.toNat < s.block.cbDmin.toNat →
    AnswersAndKeeps (.decode r) s .ok (BitVec.ofNat 32 a)
      (BitVec.ofNat 32 (hammingDistance r c s.block.cbWidth.toNat))

/-! ## ChannelSimulator (43_channel.md) -/

/-- CORRUPT (43_channel.md R133): its control word; the four refusals, in every state and mode; and what it does with its
draws. `draws` has one pair for each block, block 0 first: the flip count and the mask of the set of positions. When these are
the answers the source gives next, each within the contract of R132 (and the count `Mx` itself in exact mode, where no count is
requested), position `p` of block `j` is flipped exactly when the set of block `j` has `p`, and the requests are those of R132
in their order. `R1` is the budget flag of R135. How the source gives its answers is the model's choice: two lists of answers to
come, one for each kind of request, of which the answers not taken stay listed (LOG 4, LOG 6), and a set as a mask (LOG 6). -/
def Obligations.CorruptFollowsItsDraws : Prop :=
  ∀ (w b m : Nat) (mode : FlipMode) (x : Word) (s : State), w < 64 → b < 64 → m < 64 →
    encodeCommand (.corrupt w b m mode x) = ⟨0x50000000 ||| (BitVec.ofNat 32 w <<< 21) ||| (BitVec.ofNat 32 b <<< 15) |||
      (BitVec.ofNat 32 m <<< 9) ||| ((if mode = .exact then 1 else 0) <<< 8), x, 0⟩ ∧
    (¬ CorruptLegal w b m x → Fails (.corrupt w b m mode x) s .invalidValueRange 0) ∧
    (CorruptLegal w b m x → ∀ (draws : List (Nat × Word)) (counts : List Nat) (sets : List Word),
      draws.length = w / b →
      (∀ d ∈ draws, FlipsOk mode m d.1 ∧ popcount d.2 = d.1 ∧ d.2.toNat < 2 ^ b) →
      s.source.counts = drawnCounts mode draws ++ counts → s.source.positions = drawnSets draws ++ sets →
      ∃ t out, exec (.corrupt w b m mode x) s = .next t ∧
        Answered s t .ok out (budgetFlag s.block w (w / b) m) ∧ t.block = s.block ∧ out.toNat < 2 ^ w ∧
        (∀ j p, j < w / b → p < b → out.getLsbD ((w / b - 1 - j) * b + p) =
          (x.getLsbD ((w / b - 1 - j) * b + p) ^^ (draws.getD j (0, 0)).2.getLsbD p)) ∧
        t.source.counts = counts ∧ t.source.positions = sets ∧
        t.source.requests = s.source.requests ++ draws.flatMap (drawRequests mode b m))

/-- R134. Whatever the random source answers, the response is OK, the noisy word fits the width, each block differs in at most
`Mx` bits in mode 0 and in exactly `Mx` in mode 1, and so the whole word in at most (exactly) `nb * Mx`. Conversely every word
that meets the per-block bound is the answer for some answers of the random source. -/
def Obligations.CorruptAnswersAreExactlyTheBoundedOnes : Prop :=
  ∀ (w b m : Nat) (mode : FlipMode) (x : Word) (s : State), CorruptLegal w b m x →
    (∃ t out r1, exec (.corrupt w b m mode x) s = .next t ∧ Answered s t .ok out r1 ∧ t.block = s.block ∧
      out.toNat < 2 ^ w ∧
      (∀ j, j < w / b → FlipsOk mode m (popcount (subBlock w b j (out ^^^ x)))) ∧
      FlipsOk mode ((w / b) * m) (hammingDistance out x w)) ∧
    (∀ out : Word, out.toNat < 2 ^ w →
      (∀ j, j < w / b → FlipsOk mode m (popcount (subBlock w b j (out ^^^ x)))) →
      ∃ src t r1, exec (.corrupt w b m mode x) (setSource src s) = .next t ∧
        Answered (setSource src s) t .ok out r1)

/-- R135. The budget flag is 1 exactly when a codebook is sealed, the word has its width and twice the ceiling reaches the
minimum distance; else 0. It has no other effect: from the same random source the word is corrupted in the same way whatever the
block holds. -/
def Obligations.BudgetFlagMarksSettingsBeyondTheBound : Prop :=
  ∀ (w b m : Nat) (mode : FlipMode) (x : Word) (s : State), CorruptLegal w b m x →
    ∃ t out r1, exec (.corrupt w b m mode x) s = .next t ∧ Answered s t .ok out r1 ∧
      (r1 = 1 ∨ r1 = 0) ∧
      (r1 = 1 ↔ s.block.cbSealed = true ∧ w = s.block.cbWidth.toNat ∧ s.block.cbDmin.toNat ≤ 2 * ((w / b) * m)) ∧
      ∀ (s' t' : State) (out' r1' : Word), s'.source = s.source → exec (.corrupt w b m mode x) s' = .next t' →
        Answered s' t' .ok out' r1' → out' = out

/-- The requests of one CORRUPT in exact mode: one `RndPositions(B, Mx)` per block and no count, none at all when `Mx` is 0
(43_channel.md R132, R133). -/
def Obligations.ExactModeRequestsPositionsOnly : Prop :=
  ∀ (w b m : Nat) (x : Word) (s t : State), CorruptLegal w b m x → exec (.corrupt w b m .exact x) s = .next t →
    t.source.requests = s.source.requests ++ (if m = 0 then [] else List.replicate (w / b) (.positions b m))

/-- The requests of one CORRUPT in mode 0: per block one `RndCount(Mx)` and then, only when its answer is not 0, one
`RndPositions(B, n)` for that answer `n`; the block is then flipped in exactly `n` bits (43_channel.md R132, R133). `ns` lists
the counts drawn, block 0 first: the `j`-th is the answer to the `j`-th `RndCount`, and also the number of bits by which block
`j` of the answered word differs. That this answer is the `j`-th listed count, or the free value of its request when no more
are listed, and how a raw answer is read, is the model's choice (LOG 4, LOG 5, LOG 6). -/
def Obligations.RandomModeRequestsCountThenPositions : Prop :=
  ∀ (w b m : Nat) (x : Word) (s : State), CorruptLegal w b m x →
    ∃ t out r1, exec (.corrupt w b m .random x) s = .next t ∧ Answered s t .ok out r1 ∧
      ∃ ns : List Nat, ns.length = w / b ∧
        t.source.requests = s.source.requests ++ randomRequests b m ns ∧
        ∀ j, j < w / b →
          ns.getD j 0 ≤ m ∧
          ns.getD j 0 = countAnswer m (s.source.counts.getD j
            (Config.freeCount (s.source.requests.length + (randomRequests b m (ns.take j)).length))) ∧
          ns.getD j 0 = popcount (subBlock w b j (out ^^^ x))

/-- R136. A channel whose setting keeps flag 0, then the decoder: the ceiling is below half the minimum distance, the noisy word
is within it, and whatever the draws the symbol comes back. -/
def Obligations.ChannelWithinTheBudgetIsCorrected : Prop :=
  ∀ (w b m : Nat) (mode : FlipMode) (s t : State) (a : Nat) (c out : Word), s.Inv → s.block.cbSealed = true →
    w = s.block.cbWidth.toNat → memRead s.block.lut a = some c → CorruptLegal w b m c →
    exec (.corrupt w b m mode c) s = .next t → Answered s t .ok out 0 →
    2 * ((w / b) * m) < s.block.cbDmin.toNat ∧ hammingDistance out c w ≤ (w / b) * m ∧
    ∃ r1, AnswersAndKeeps (.decode out) t .ok (BitVec.ofNat 32 a) r1

/-- With one-byte sub-blocks, the sub-blocks of CORRUPT are the bytes of the codeword in the order of 20_memory.md R44
(43_channel.md R130). -/
def Obligations.ByteBlocksAreTheCodewordBytes : Prop :=
  ∀ (nb n : Nat) (x : Word), nb ≤ 4 → n < nb →
    subBlock (8 * nb) 8 n x = (codewordByte (8 * nb) n x).setWidth 32 ∧
    ∀ p, p < 8 → (subBlock (8 * nb) 8 n x).getLsbD p = x.getLsbD ((nb - 1 - n) * 8 + p)

/-! ## ParityFrame (44_parityframe.md) -/

/-- R144, R71, R72. FRAME_ENC answers the frame of the payload bit by bit: the leading marker, the payload, in variant 1
the trailing marker, and the parity bits of the table of R140; a payload that does not fit four bits gets
InvalidValueRange. Its control word is `0x58000000 | (V << 7)`. -/
def Obligations.FrameEncBuildsTheFrame : Prop :=
  ∀ (v : Variant) (x : Word) (s : State),
    encodeCommand (.frameEnc v x) = ⟨0x58000000 ||| ((if v = .v1 then 1 else 0) <<< 7), x, 0⟩ ∧
    (16 ≤ x.toNat → Fails (.frameEnc v x) s .invalidValueRange 0) ∧
    (x.toNat < 16 → ∃ f : Word, AnswersAndKeeps (.frameEnc v x) s .ok f 0 ∧ f.toNat < 256 ∧
      (∀ i, i < 4 → f.getLsbD (3 + i) = x.getLsbD i) ∧ MarkersRight v f ∧ ParityRight v f)

/-- R145. FRAME_DEC: InvalidValueRange for more than a byte; StructuralMismatch when a marker is wrong, whatever the
parity; ParityMismatch when the markers are right and the parity is not; else the payload. Its control word is
`0x60000000 | (V << 7)`. -/
def Obligations.FrameDecChecksMarkersThenParity : Prop :=
  ∀ (v : Variant) (f : Word) (s : State),
    encodeCommand (.frameDec v f) = ⟨0x60000000 ||| ((if v = .v1 then 1 else 0) <<< 7), f, 0⟩ ∧
    (256 ≤ f.toNat → Fails (.frameDec v f) s .invalidValueRange 0) ∧
    (f.toNat < 256 →
      (¬ MarkersRight v f → Fails (.frameDec v f) s .structuralMismatch 0) ∧
      (MarkersRight v f → ¬ ParityRight v f → Fails (.frameDec v f) s .parityMismatch 0) ∧
      (MarkersRight v f → ParityRight v f → AnswersAndKeeps (.frameDec v f) s .ok (BitVec.ofNat 32 (f.toNat / 8 % 16)) 0))

/-- A byte passes FRAME_DEC exactly when it is the frame of its own payload, and then the answer is that payload
(44_parityframe.md R142, R145). -/
def Obligations.ValidFramesAreTheEncodedOnes : Prop :=
  ∀ (v : Variant) (f : Word) (n : Nibble) (s : State),
    AnswersAndKeeps (.frameDec v f) s .ok (n.setWidth 32) 0 ↔
      AnswersAndKeeps (.frameEnc v (n.setWidth 32)) s .ok f 0

/-- R148. Every single bit flipped in a valid frame is detected, with the outcome of the table. -/
def Obligations.SingleBitFlipsAreDetected : Prop :=
  ∀ (v : Variant) (n : Nibble) (b : Nat) (s : State), b < 8 →
    Fails (.frameDec v ((frameOf n v ^^^ (1#8 <<< b)).setWidth 32)) s
      (if b = 7 ∨ (b = 2 ∧ v = .v1) then .structuralMismatch else .parityMismatch) 0

/-- R149. Of the two-bit flips of a valid frame, exactly these give another valid frame with another payload: a payload bit and
the parity bit it feeds, or two payload bits that feed the same parity bit; five in variant 0, six in variant 1. -/
def Obligations.UndetectedDoubleFlips : Prop :=
  ∀ (n : Nibble) (s : State) (v : Variant) (p q : Nat), q < p → p < 8 →
    ((∃ n' : Nibble, n' ≠ n ∧
        AnswersAndKeeps (.frameDec v ((frameOf n v ^^^ (1#8 <<< p) ^^^ (1#8 <<< q)).setWidth 32)) s .ok
          (n'.setWidth 32) 0) ↔
      (p, q) ∈ undetectedPairs v)

/-- R146. VAL12_ENC packs the three variant-0 frames of the value's nibbles, most significant first; a value above 4095
gets InvalidValueRange. Its control word is `0x68000000`. -/
def Obligations.Val12EncPacksThreeFrames : Prop :=
  ∀ (x : Word) (s : State),
    encodeCommand (.val12Enc x) = ⟨0x68000000, x, 0⟩ ∧
    (4096 ≤ x.toNat → Fails (.val12Enc x) s .invalidValueRange 0) ∧
    (x.toNat < 4096 → ∃ r0 : Word, AnswersAndKeeps (.val12Enc x) s .ok r0 0 ∧
      r0.toNat = (frameOf (BitVec.ofNat 4 (x.toNat / 256)) .v0).toNat * 65536 +
        (frameOf (BitVec.ofNat 4 (x.toNat / 16)) .v0).toNat * 256 + (frameOf (BitVec.ofNat 4 x.toNat) .v0).toNat)

/-- R147. VAL12_DEC: InvalidValueRange above 24 bits; else the error of the first failing frame with its index in `R1`; else
the three payloads joined, the first the most significant. Its control word is `0x70000000`. -/
def Obligations.Val12DecFailsOnTheFirstBadFrame : Prop :=
  ∀ (x : Word) (s : State),
    encodeCommand (.val12Dec x) = ⟨0x70000000, x, 0⟩ ∧
    (2 ^ 24 ≤ x.toNat → Fails (.val12Dec x) s .invalidValueRange 0) ∧
    (x.toNat < 2 ^ 24 →
      (∀ i, i < 3 → (∀ j, j < i → ∃ n, checkFrame (BitVec.ofNat 8 (x.toNat / 256 ^ (2 - j))) .v0 = .payload n) →
        (checkFrame (BitVec.ofNat 8 (x.toNat / 256 ^ (2 - i))) .v0 = .structural →
          Fails (.val12Dec x) s .structuralMismatch (BitVec.ofNat 32 i)) ∧
        (checkFrame (BitVec.ofNat 8 (x.toNat / 256 ^ (2 - i))) .v0 = .parity →
          Fails (.val12Dec x) s .parityMismatch (BitVec.ofNat 32 i))) ∧
      (∀ n0 n1 n2 : Nibble, checkFrame (BitVec.ofNat 8 (x.toNat / 65536)) .v0 = .payload n0 →
        checkFrame (BitVec.ofNat 8 (x.toNat / 256)) .v0 = .payload n1 →
        checkFrame (BitVec.ofNat 8 x.toNat) .v0 = .payload n2 →
        AnswersAndKeeps (.val12Dec x) s .ok (BitVec.ofNat 32 (n0.toNat * 256 + n1.toNat * 16 + n2.toNat)) 0))

/-- VAL12_DEC of the answer of VAL12_ENC gives the value back, for every value from 0 to 4095 (44_parityframe.md R147). -/
def Obligations.Val12RoundTrip : Prop :=
  ∀ (x : Word) (s s' : State), x.toNat < 4096 →
    ∃ r0, AnswersAndKeeps (.val12Enc x) s .ok r0 0 ∧ AnswersAndKeeps (.val12Dec r0) s' .ok x 0

/-! ## Frames -/

/-- The commands that read state at most: whatever they answer, the block, the source, the list of moves and K are as
before. -/
def Obligations.ReadingCommandsTouchNothing : Prop :=
  ∀ (i : Instr) (s t : State),
    (∀ a v, i ≠ .cbWrite a v) → (∀ w d, i ≠ .cbSeal w d) → (∀ w d n, i ≠ .cbGen w d n) →
    (∀ w b m mode x, i ≠ .corrupt w b m mode x) → exec i s = .next t →
    Untouched s t ∧ t.program = s.program ∧ t.k = s.k

/-- The frames of the four commands that change something, whatever they answer: CB_WRITE changes one entry only, CB_SEAL the
control fields only, CB_GEN the block only, CORRUPT the random source only. -/
def Obligations.WritingCommandsLeaveTheRestAlone : Prop :=
  ∀ s t : State,
    (∀ a v, exec (.cbWrite a v) s = .next t →
      (∀ b, b ≠ a.toNat → memRead t.block.lut b = memRead s.block.lut b) ∧ t.block.cbSealed = s.block.cbSealed ∧
      t.block.cbWidth = s.block.cbWidth ∧ t.block.cbDmin = s.block.cbDmin ∧ t.source = s.source ∧
      t.program = s.program ∧ t.k = s.k) ∧
    (∀ w d, exec (.cbSeal w d) s = .next t →
      (∀ b, memRead t.block.lut b = memRead s.block.lut b) ∧ t.source = s.source ∧ t.program = s.program ∧
      t.k = s.k) ∧
    (∀ w d n, exec (.cbGen w d n) s = .next t → t.source = s.source ∧ t.program = s.program ∧ t.k = s.k) ∧
    (∀ w b m mode x, exec (.corrupt w b m mode x) s = .next t →
      t.block = s.block ∧ t.program = s.program ∧ t.k = s.k)
end

