-- ==== Sys2Proof/Laws/BitMetric.lean ====
section
/-! SUPPORT. Bits of masks and the bit count (40_bitmetric.md R90, R91). -/

namespace Sys2Proof.Machine

/-- Bit `i` of `mask(n)` (00_scope.md R12). -/
@[simp] theorem lowMask_getLsbD (n i : Nat) : (lowMask n).getLsbD i = (decide (i < 32) && decide (i < n)) := by
  simp [lowMask, BitVec.getLsbD_ofNat, Nat.testBit_two_pow_sub_one]

/-- The bit count below `n` depends on the lowest `n` bits only. -/
theorem popcountBelow_congr {x y : Word} {n : Nat} (h : ∀ i < n, x.getLsbD i = y.getLsbD i) :
    popcountBelow x n = popcountBelow y n := by
  induction n with
  | zero => rfl
  | succ n ih =>
    simp only [popcountBelow]
    rw [ih fun i hi => h i (by omega), h n (by omega)]

theorem popcountBelow_le (x : Word) (n : Nat) : popcountBelow x n ≤ n := by
  induction n with
  | zero => simp [popcountBelow]
  | succ n ih =>
    simp only [popcountBelow]
    have := Bool.toNat_le (x.getLsbD n)
    omega

/-- No set bit below `n` means a count of 0, and conversely. -/
theorem popcountBelow_eq_zero {x : Word} {n : Nat} :
    popcountBelow x n = 0 ↔ ∀ i < n, x.getLsbD i = false := by
  induction n with
  | zero => simp [popcountBelow]
  | succ n ih =>
    simp only [popcountBelow, Nat.add_eq_zero_iff, ih]
    constructor
    · rintro ⟨h, hn⟩ i hi
      rcases Nat.lt_succ_iff_lt_or_eq.1 hi with h' | rfl
      · exact h i h'
      · simpa using hn
    · intro h
      exact ⟨fun i hi => h i (by omega), by simp [h n (by omega)]⟩

/-- The bit count below `n` as the length of the list of the set positions. -/
theorem popcountBelow_eq_length (x : Word) (n : Nat) :
    popcountBelow x n = ((List.range n).filter fun i => x.getLsbD i).length := by
  induction n with
  | zero => rfl
  | succ n ih =>
    rw [List.range_succ, List.filter_append, List.length_append, ← ih]
    cases h : x.getLsbD n <;> simp [popcountBelow, h]

/-- Every bit at or above `n` is 0: counting stops at `n`. -/
theorem popcountBelow_of_high_zero {x : Word} {n m : Nat} (hnm : n ≤ m) (h : ∀ i, n ≤ i → x.getLsbD i = false) :
    popcountBelow x m = popcountBelow x n := by
  induction m with
  | zero => have : n = 0 := by omega
            subst this; rfl
  | succ m ih =>
    rcases Nat.lt_or_ge n (m + 1) with h' | h'
    · simp only [popcountBelow, ih (by omega), h m (by omega)]; simp
    · have : n = m + 1 := by omega
      subst this; rfl

/-- The bit count below `n` of a word whose bits are each at most the sum of two others'. -/
theorem popcountBelow_le_add {x y z : Word} {n : Nat}
    (h : ∀ i < n, (x.getLsbD i).toNat ≤ (y.getLsbD i).toNat + (z.getLsbD i).toNat) :
    popcountBelow x n ≤ popcountBelow y n + popcountBelow z n := by
  induction n with
  | zero => simp [popcountBelow]
  | succ n ih =>
    simp only [popcountBelow]
    have h1 := ih fun i hi => h i (by omega)
    have h2 := h n (by omega)
    omega

/-- Bit `i` of the word whose set bits the distance counts (40_bitmetric.md R91). -/
theorem distanceBit (a b : Word) (w i : Nat) :
    ((a ^^^ b) &&& lowMask w).getLsbD i = ((a.getLsbD i ^^ b.getLsbD i) && decide (i < w)) := by
  simp only [BitVec.getLsbD_and, BitVec.getLsbD_xor, lowMask_getLsbD]
  by_cases h : i < 32
  · simp [h]
  · have ha := BitVec.getLsbD_of_ge a i (by omega)
    have hb := BitVec.getLsbD_of_ge b i (by omega)
    simp [ha, hb, h]

/-- `HD(a, b, w)` counts the differing positions below `w`, none above bit 31 (40_bitmetric.md R91). -/
theorem hammingDistance_eq (a b : Word) (w : Nat) : hammingDistance a b w = popcountBelow (a ^^^ b) (min w 32) := by
  unfold hammingDistance popcount
  rw [popcountBelow_of_high_zero (n := min w 32) (Nat.min_le_right _ _)]
  · apply popcountBelow_congr
    intro i hi
    rw [distanceBit, BitVec.getLsbD_xor]
    simp [show i < w by omega]
  · intro i hi
    rw [distanceBit]
    by_cases h : i < w
    · rw [BitVec.getLsbD_of_ge a i (by omega), BitVec.getLsbD_of_ge b i (by omega)]; rfl
    · simp [h]

end Sys2Proof.Machine
end

