-- ==== Sys2Proof/Laws/State.lean ====
section
/-! SUPPORT. One lemma per field per update of the state, each true by rfl, so that no proof unfolds a record update. -/

namespace Sys2Proof.Machine

/-! ## respond -/

@[simp] theorem respond_k (st : Status) (r0 r1 : Word) (s : State) :
    (respond st r0 r1 s).k = s.k := rfl

@[simp] theorem respond_block (st : Status) (r0 r1 : Word) (s : State) :
    (respond st r0 r1 s).block = s.block := rfl

@[simp] theorem respond_source (st : Status) (r0 r1 : Word) (s : State) :
    (respond st r0 r1 s).source = s.source := rfl

@[simp] theorem respond_program (st : Status) (r0 r1 : Word) (s : State) :
    (respond st r0 r1 s).program = s.program := rfl

@[simp] theorem respond_pc (st : Status) (r0 r1 : Word) (s : State) :
    (respond st r0 r1 s).pc = s.pc + 1 := rfl

@[simp] theorem respond_responses (st : Status) (r0 r1 : Word) (s : State) :
    (respond st r0 r1 s).responses = s.responses ++ [{ st := st, r0 := r0, r1 := r1 }] := rfl

/-! ## setSource -/

@[simp] theorem setSource_k (src : Source) (s : State) :
    (setSource src s).k = s.k := rfl

@[simp] theorem setSource_block (src : Source) (s : State) :
    (setSource src s).block = s.block := rfl

@[simp] theorem setSource_source (src : Source) (s : State) :
    (setSource src s).source = src := rfl

@[simp] theorem setSource_program (src : Source) (s : State) :
    (setSource src s).program = s.program := rfl

@[simp] theorem setSource_pc (src : Source) (s : State) :
    (setSource src s).pc = s.pc := rfl

@[simp] theorem setSource_responses (src : Source) (s : State) :
    (setSource src s).responses = s.responses := rfl

/-! ## writeEntry -/

@[simp] theorem writeEntry_k (a : Nat) (v : Word) (s : State) :
    (writeEntry a v s).k = s.k := rfl

@[simp] theorem writeEntry_block_lut (a : Nat) (v : Word) (s : State) :
    (writeEntry a v s).block.lut = memWrite s.block.lut a v := rfl

@[simp] theorem writeEntry_block_cbSealed (a : Nat) (v : Word) (s : State) :
    (writeEntry a v s).block.cbSealed = s.block.cbSealed := rfl

@[simp] theorem writeEntry_block_cbWidth (a : Nat) (v : Word) (s : State) :
    (writeEntry a v s).block.cbWidth = s.block.cbWidth := rfl

@[simp] theorem writeEntry_block_cbDmin (a : Nat) (v : Word) (s : State) :
    (writeEntry a v s).block.cbDmin = s.block.cbDmin := rfl

@[simp] theorem writeEntry_source (a : Nat) (v : Word) (s : State) :
    (writeEntry a v s).source = s.source := rfl

@[simp] theorem writeEntry_program (a : Nat) (v : Word) (s : State) :
    (writeEntry a v s).program = s.program := rfl

@[simp] theorem writeEntry_pc (a : Nat) (v : Word) (s : State) :
    (writeEntry a v s).pc = s.pc := rfl

@[simp] theorem writeEntry_responses (a : Nat) (v : Word) (s : State) :
    (writeEntry a v s).responses = s.responses := rfl

/-! ## sealCodebook -/

@[simp] theorem sealCodebook_k (w d : Nat) (s : State) :
    (sealCodebook w d s).k = s.k := rfl

@[simp] theorem sealCodebook_block_lut (w d : Nat) (s : State) :
    (sealCodebook w d s).block.lut = s.block.lut := rfl

@[simp] theorem sealCodebook_block_cbSealed (w d : Nat) (s : State) :
    (sealCodebook w d s).block.cbSealed = true := rfl

@[simp] theorem sealCodebook_block_cbWidth (w d : Nat) (s : State) :
    (sealCodebook w d s).block.cbWidth = BitVec.ofNat 6 w := rfl

@[simp] theorem sealCodebook_block_cbDmin (w d : Nat) (s : State) :
    (sealCodebook w d s).block.cbDmin = BitVec.ofNat 6 d := rfl

@[simp] theorem sealCodebook_source (w d : Nat) (s : State) :
    (sealCodebook w d s).source = s.source := rfl

@[simp] theorem sealCodebook_program (w d : Nat) (s : State) :
    (sealCodebook w d s).program = s.program := rfl

@[simp] theorem sealCodebook_pc (w d : Nat) (s : State) :
    (sealCodebook w d s).pc = s.pc := rfl

@[simp] theorem sealCodebook_responses (w d : Nat) (s : State) :
    (sealCodebook w d s).responses = s.responses := rfl

/-! ## loadTable -/

@[simp] theorem loadTable_k (codewords : List Word) (s : State) :
    (loadTable codewords s).k = s.k := rfl

@[simp] theorem loadTable_block_lut (codewords : List Word) (s : State) :
    (loadTable codewords s).block.lut = codewords.mapIdx fun a v => (a, v) := rfl

@[simp] theorem loadTable_block_cbSealed (codewords : List Word) (s : State) :
    (loadTable codewords s).block.cbSealed = s.block.cbSealed := rfl

@[simp] theorem loadTable_block_cbWidth (codewords : List Word) (s : State) :
    (loadTable codewords s).block.cbWidth = s.block.cbWidth := rfl

@[simp] theorem loadTable_block_cbDmin (codewords : List Word) (s : State) :
    (loadTable codewords s).block.cbDmin = s.block.cbDmin := rfl

@[simp] theorem loadTable_source (codewords : List Word) (s : State) :
    (loadTable codewords s).source = s.source := rfl

@[simp] theorem loadTable_program (codewords : List Word) (s : State) :
    (loadTable codewords s).program = s.program := rfl

@[simp] theorem loadTable_pc (codewords : List Word) (s : State) :
    (loadTable codewords s).pc = s.pc := rfl

@[simp] theorem loadTable_responses (codewords : List Word) (s : State) :
    (loadTable codewords s).responses = s.responses := rfl

/-! ## resetBlock -/

@[simp] theorem resetBlock_k (s : State) :
    (resetBlock s).k = s.k := rfl

@[simp] theorem resetBlock_block (s : State) :
    (resetBlock s).block = Block.reset := rfl

@[simp] theorem resetBlock_source (s : State) :
    (resetBlock s).source = s.source := rfl

@[simp] theorem resetBlock_program (s : State) :
    (resetBlock s).program = s.program := rfl

@[simp] theorem resetBlock_pc (s : State) :
    (resetBlock s).pc = s.pc + 1 := rfl

@[simp] theorem resetBlock_responses (s : State) :
    (resetBlock s).responses = s.responses := rfl

/-! ## Reset -/

@[simp] theorem reset_k : State.reset.k = 4 := rfl

@[simp] theorem reset_block : State.reset.block = Block.reset := rfl

@[simp] theorem reset_source : State.reset.source = { counts := [], positions := [], requests := [] } := rfl

@[simp] theorem reset_program : State.reset.program = [] := rfl

@[simp] theorem reset_pc : State.reset.pc = 0 := rfl

@[simp] theorem reset_responses : State.reset.responses = [] := rfl

@[simp] theorem blockReset_lut : Block.reset.lut = [] := rfl

@[simp] theorem blockReset_cbSealed : Block.reset.cbSealed = false := rfl

@[simp] theorem blockReset_cbWidth : Block.reset.cbWidth = 0 := rfl

@[simp] theorem blockReset_cbDmin : Block.reset.cbDmin = 0 := rfl

end Sys2Proof.Machine
end

