-- ==== Sys2Proof/Laws/Ops.lean ====
section
/-! SUPPORT. What each shared operation can do, said once: answering, the requests to the random source, the host's list of
moves, and the operand checks. -/

namespace Sys2Proof.Machine

/-! ## Answering -/

/-- A command that ends with OK answers exactly this state (30_encoding.md R64). -/
@[simp] theorem finish_eq_next {r0 r1 : Word} {s t : State} :
    finish r0 r1 s = .next t ↔ respond .ok r0 r1 s = t := by
  simp [finish]

/-- A command that raises an error answers exactly this state (60_exceptions.md R163). -/
@[simp] theorem raise_eq_next {e : ErrorStatus} {info : Word} {s t : State} :
    raise e info s = .next t ↔ respond (.error e) 0 info s = t := by
  simp [raise]

@[simp] theorem finish_ne_fault {r0 r1 : Word} {s : State} {f : Fault} : finish r0 r1 s ≠ .fault f := by
  simp [finish]

@[simp] theorem raise_ne_fault {e : ErrorStatus} {info : Word} {s : State} {f : Fault} :
    raise e info s ≠ .fault f := by
  simp [raise]

@[simp] theorem finish_ne_refused {r0 r1 : Word} {s : State} {f : Refusal} : finish r0 r1 s ≠ .refused f := by
  simp [finish]

@[simp] theorem raise_ne_refused {e : ErrorStatus} {info : Word} {s : State} {f : Refusal} :
    raise e info s ≠ .refused f := by
  simp [raise]

/-- The codes of the ten statuses differ and lie below 10 (60_exceptions.md R160). -/
theorem statusCode_lt (st : Status) : (statusCode st).toNat < 10 := by
  cases st with
  | ok => decide
  | error e => cases e <;> decide

theorem statusCode_inj {a b : Status} (h : statusCode a = statusCode b) : a = b := by
  rcases a with _ | a <;> rcases b with _ | b
  · rfl
  · cases b <;> simp [statusCode] at h
  · cases a <;> simp [statusCode] at h
  · cases a <;> cases b <;> first | rfl | simp [statusCode] at h

/-! ## The random source -/

/-- The count is within the contract whatever the source answers (43_channel.md R132). -/
theorem countAnswer_le (maxFlips raw : Nat) : countAnswer maxFlips raw ≤ maxFlips :=
  Nat.lt_succ_iff.1 (Nat.mod_lt _ (Nat.succ_pos _))

/-- An answer within the contract stands for itself (43_channel.md R132). -/
@[simp] theorem countAnswer_of_le {maxFlips raw : Nat} (h : raw ≤ maxFlips) : countAnswer maxFlips raw = raw :=
  Nat.mod_eq_of_lt (Nat.lt_succ_of_le h)

@[simp] theorem rndCount_requests (maxFlips : Nat) (src : Source) :
    (rndCount maxFlips src).2.requests = src.requests ++ [.count maxFlips] := rfl

@[simp] theorem rndCount_counts (maxFlips : Nat) (src : Source) :
    (rndCount maxFlips src).2.counts = src.counts.tail := rfl

@[simp] theorem rndCount_positions (maxFlips : Nat) (src : Source) :
    (rndCount maxFlips src).2.positions = src.positions := rfl

@[simp] theorem rndPositions_requests (b n : Nat) (src : Source) :
    (rndPositions b n src).2.requests = src.requests ++ [.positions b n] := rfl

@[simp] theorem rndPositions_counts (b n : Nat) (src : Source) :
    (rndPositions b n src).2.counts = src.counts := rfl

@[simp] theorem rndPositions_positions (b n : Nat) (src : Source) :
    (rndPositions b n src).2.positions = src.positions.tail := rfl

theorem rndCount_le (maxFlips : Nat) (src : Source) : (rndCount maxFlips src).1 ≤ maxFlips :=
  countAnswer_le _ _

/-! ## The host's moves -/

/-- The move placed at the index is the next one. -/
@[simp] theorem placeMove_getElem? (m : HostMove) (l : List HostMove) (n : Nat) : (placeMove m l n)[n]? = some m := by
  induction n generalizing l with
  | zero => cases l <;> simp [placeMove]
  | succ n ih => cases l <;> simp [placeMove, ih]

/-! ## Operand checks -/

/-- A word fits `n` bits exactly when it is below `2^n` (30_encoding.md R63). -/
@[simp] theorem fitsBits_eq_true {n : Nat} {x : Word} : fitsBits n x = true ↔ x.toNat < 2 ^ n := by
  simp only [fitsBits, beq_iff_eq]
  constructor
  · intro h
    have := congrArg BitVec.toNat h
    simp only [BitVec.toNat_ushiftRight, BitVec.ofNat_eq_ofNat, BitVec.toNat_zero, Nat.shiftRight_eq_div_pow] at this
    exact (Nat.div_eq_zero_iff_lt (Nat.two_pow_pos n)).1 this
  · intro h
    apply BitVec.eq_of_toNat_eq
    simp [Nat.shiftRight_eq_div_pow, Nat.div_eq_of_lt h]

@[simp] theorem widthInRange_eq_true {w : Nat} : widthInRange w = true ↔ 1 ≤ w ∧ w ≤ 32 := by
  simp only [widthInRange, Bool.and_eq_true, decide_eq_true_eq]; rfl

@[simp] theorem isSymbol_eq_true {s : State} {x : Word} : isSymbol s x = true ↔ x.toNat < 2 ^ s.k := by
  simp only [isSymbol, decide_eq_true_eq]; rfl

@[simp] theorem countInRange_eq_true {s : State} {n : Nat} : countInRange s n = true ↔ 1 ≤ n ∧ n ≤ 2 ^ s.k := by
  simp only [countInRange, Bool.and_eq_true, decide_eq_true_eq]; rfl

@[simp] theorem blockInRange_eq_true {ww b : Nat} :
    blockInRange ww b = true ↔ (1 ≤ b ∧ b ≤ ww) ∧ ww % b = 0 := by
  simp [blockInRange]

end Sys2Proof.Machine
end

