-- ==== Sys2Proof/Laws/Channel.lean ====
section
/-! SUPPORT. What the draws of one block and the loop over the blocks of CORRUPT can do (43_channel.md R130 to R134). -/

namespace Sys2Proof.Machine

/-! ## The set of positions -/

theorem one_shiftLeft_getLsbD (b i : Nat) : (1#32 <<< b).getLsbD i = (decide (i < 32) && decide (i = b)) := by
  rw [BitVec.getLsbD_shiftLeft, BitVec.getLsbD_one]
  by_cases hi : i < 32
  · by_cases he : i = b
    · subst he; simp [hi]
    · simp only [hi, he, decide_true, decide_false, Bool.true_and, Bool.and_false, Bool.and_eq_false_iff,
        Bool.not_eq_false', decide_eq_true_eq, decide_eq_false_iff_not]
      omega
  · simp [hi]

/-- No position at or above the block width is picked (43_channel.md R132). -/
theorem pickPositions_high {b n : Nat} {raw : Word} : ∀ {i : Nat}, b ≤ i → (pickPositions b n raw).getLsbD i = false := by
  induction b generalizing n with
  | zero => intro i _; simp [pickPositions]
  | succ b ih =>
    intro i hi
    simp only [pickPositions]
    split
    · simp
    · split
      · rw [BitVec.getLsbD_or, one_shiftLeft_getLsbD, ih (by omega)]
        simp only [Bool.or_false, Bool.and_eq_false_iff, decide_eq_false_iff_not]
        right; omega
      · exact ih (by omega)

/-- Exactly `n` positions are picked, whatever the source answers (43_channel.md R132). -/
theorem pickPositions_count {b n : Nat} {raw : Word} (hb : b ≤ 32) (hn : n ≤ b) :
    popcountBelow (pickPositions b n raw) b = n := by
  induction b generalizing n with
  | zero => have : n = 0 := by omega
            subst this; rfl
  | succ b ih =>
    simp only [pickPositions]
    split
    · subst_vars; simp [popcountBelow_eq_zero]
    · split
      · have hlow : popcountBelow ((1#32 <<< b) ||| pickPositions b (n - 1) raw) b =
            popcountBelow (pickPositions b (n - 1) raw) b := by
          apply popcountBelow_congr
          intro i hi
          rw [BitVec.getLsbD_or, one_shiftLeft_getLsbD]
          simp [show ¬ i = b by omega]
        simp only [popcountBelow]
        rw [hlow, ih (by omega) (by omega), BitVec.getLsbD_or, one_shiftLeft_getLsbD]
        simp only [show b < 32 by omega, decide_true, Bool.true_and, Bool.true_or, Bool.toNat_true]
        omega
      · rename_i hforced
        simp only [Bool.or_eq_true, decide_eq_true_eq, not_or, not_le] at hforced
        simp only [popcountBelow]
        rw [ih (by omega) (by omega), pickPositions_high (Nat.le_refl b)]
        rfl

/-- A set of `n` positions below the block width stands for itself (43_channel.md R132). -/
theorem pickPositions_legal {b n : Nat} {raw : Word} (hb : b ≤ 32) (hn : popcountBelow raw b = n) :
    ∀ i < b, (pickPositions b n raw).getLsbD i = raw.getLsbD i := by
  induction b generalizing n with
  | zero => intro i hi; omega
  | succ b ih =>
    intro i hi
    have hle := popcountBelow_le raw b
    simp only [popcountBelow] at hn
    simp only [pickPositions]
    split
    · rename_i h0
      have hz : popcountBelow raw (b + 1) = 0 := by simp only [popcountBelow]; omega
      rw [popcountBelow_eq_zero.1 hz i hi]
      simp
    · cases hbit : raw.getLsbD b with
      | true =>
        rw [hbit] at hn
        simp only [Bool.toNat_true] at hn
        simp only [Bool.true_or, if_true]
        rw [BitVec.getLsbD_or, one_shiftLeft_getLsbD]
        rcases Nat.lt_succ_iff_lt_or_eq.1 hi with h | rfl
        · rw [ih (by omega) (show popcountBelow raw b = n - 1 by omega) i h]
          simp [show ¬ i = b by omega]
        · simp [show i < 32 by omega, hbit]
      | false =>
        rw [hbit] at hn
        simp only [Bool.toNat_false, Nat.add_zero] at hn
        simp only [Bool.false_or, decide_eq_true_eq, show ¬ b + 1 ≤ n by omega, if_false]
        rcases Nat.lt_succ_iff_lt_or_eq.1 hi with h | rfl
        · exact ih (by omega) hn i h
        · rw [pickPositions_high (Nat.le_refl i), hbit]

/-! ## One block -/

/-- The count of one block is within the ceiling, and equals it in exact mode (43_channel.md R132, R133). -/
theorem blockCount_le (mode : FlipMode) (maxFlips : Nat) (src : Source) : (blockCount mode maxFlips src).1 ≤ maxFlips := by
  cases mode with
  | random => exact rndCount_le maxFlips src
  | exact => exact Nat.le_refl _

@[simp] theorem blockCount_exact (maxFlips : Nat) (src : Source) : blockCount .exact maxFlips src = (maxFlips, src) := rfl

@[simp] theorem blockCount_random (maxFlips : Nat) (src : Source) :
    blockCount .random maxFlips src = rndCount maxFlips src := rfl

/-- A count of 0 sends no request (43_channel.md R132). -/
@[simp] theorem blockPositions_zero (b : Nat) (src : Source) : blockPositions b 0 src = (0, src) := rfl

theorem blockPositions_of_ne_zero {b n : Nat} (h : n ≠ 0) (src : Source) : blockPositions b n src = rndPositions b n src :=
  if_neg h

theorem blockPositions_high {b n i : Nat} {src : Source} (h : b ≤ i) : (blockPositions b n src).1.getLsbD i = false := by
  unfold blockPositions
  split
  · simp
  · exact pickPositions_high h

theorem blockPositions_count {b n : Nat} {src : Source} (hb : b ≤ 32) (hn : n ≤ b) :
    popcountBelow (blockPositions b n src).1 b = n := by
  unfold blockPositions
  split
  · subst_vars; simp [popcountBelow_eq_zero]
  · exact pickPositions_count hb hn

/-! ## The loop -/

/-- The bits that the loop flips. -/
def flippedBits (b maxFlips : Nat) (mode : FlipMode) (r : Nat) (out : Word) (src : Source) : Word :=
  (corruptBlocks b maxFlips mode r out src).1 ^^^ out

/-- One round of the loop flips the positions of its block on top of what the rounds after it flip (43_channel.md R133). -/
theorem flippedBits_succ (b maxFlips : Nat) (mode : FlipMode) (r : Nat) (out : Word) (src : Source) :
    let flips := blockPositions b (blockCount mode maxFlips src).1 (blockCount mode maxFlips src).2
    flippedBits b maxFlips mode (r + 1) out src =
      flippedBits b maxFlips mode r (out ^^^ (flips.1 <<< (r * b))) flips.2 ^^^ (flips.1 <<< (r * b)) := by
  apply BitVec.eq_of_getLsbD_eq
  intro i _
  simp only [flippedBits, corruptBlocks, BitVec.getLsbD_xor]
  exact (by decide : ∀ a o f : Bool, (a ^^ o) = ((a ^^ (o ^^ f)) ^^ f)) _ _ _

/-- The loop flips bits of its blocks only (43_channel.md R130). -/
theorem flippedBits_high {b maxFlips : Nat} {mode : FlipMode} {r : Nat} :
    ∀ {out : Word} {src : Source} {i : Nat}, r * b ≤ i → (flippedBits b maxFlips mode r out src).getLsbD i = false := by
  induction r with
  | zero => simp [flippedBits, corruptBlocks]
  | succ r ih =>
    intro out src i hi
    have hrb : (r + 1) * b = r * b + b := by ring
    rw [flippedBits_succ, BitVec.getLsbD_xor, ih (by omega), BitVec.getLsbD_shiftLeft,
      blockPositions_high (show b ≤ i - r * b by omega)]
    simp

/-- In the block of the first round as many bits are flipped as its count says (43_channel.md R132, R133). -/
theorem flippedBits_first {b maxFlips : Nat} {mode : FlipMode} {r : Nat} (hm : maxFlips ≤ b) (hr : (r + 1) * b ≤ 32)
    (out : Word) (src : Source) :
    popcountBelow (flippedBits b maxFlips mode (r + 1) out src >>> (r * b)) b = (blockCount mode maxFlips src).1 := by
  have hrb : (r + 1) * b = r * b + b := by ring
  rw [← blockPositions_count (b := b) (src := (blockCount mode maxFlips src).2) (by omega)
    ((blockCount_le mode maxFlips src).trans hm)]
  apply popcountBelow_congr
  intro i hi
  rw [BitVec.getLsbD_ushiftRight, flippedBits_succ, BitVec.getLsbD_xor, flippedBits_high (by omega),
    BitVec.getLsbD_shiftLeft]
  simp [show ¬ r * b + i < r * b by omega, show r * b + i < 32 by omega]

/-- In the blocks of the later rounds the first round flips nothing (43_channel.md R130). -/
theorem flippedBits_later {b maxFlips : Nat} {mode : FlipMode} {r q : Nat} (hq : q < r) (out : Word) (src : Source) :
    let flips := blockPositions b (blockCount mode maxFlips src).1 (blockCount mode maxFlips src).2
    popcountBelow (flippedBits b maxFlips mode (r + 1) out src >>> (q * b)) b =
      popcountBelow (flippedBits b maxFlips mode r (out ^^^ (flips.1 <<< (r * b))) flips.2 >>> (q * b)) b := by
  have hqb : (q + 1) * b ≤ r * b := Nat.mul_le_mul_right b hq
  have hqb' : (q + 1) * b = q * b + b := by ring
  apply popcountBelow_congr
  intro i hi
  rw [BitVec.getLsbD_ushiftRight, BitVec.getLsbD_ushiftRight, flippedBits_succ, BitVec.getLsbD_xor,
    BitVec.getLsbD_shiftLeft]
  simp [show q * b + i < r * b by omega]

theorem blockCount_ok (mode : FlipMode) (maxFlips : Nat) (src : Source) :
    FlipsOk mode maxFlips (blockCount mode maxFlips src).1 := by
  cases mode with
  | random => exact blockCount_le .random maxFlips src
  | exact => rfl

/-- The loop flips bits of its blocks only, and in each block as many as the mode allows (43_channel.md R134). -/
theorem flippedBits_spec {b maxFlips : Nat} {mode : FlipMode} (hm : maxFlips ≤ b) (r : Nat) :
    ∀ (out : Word) (src : Source), r * b ≤ 32 →
      (∀ i, r * b ≤ i → (flippedBits b maxFlips mode r out src).getLsbD i = false) ∧
      ∀ q, q < r → FlipsOk mode maxFlips (popcountBelow (flippedBits b maxFlips mode r out src >>> (q * b)) b) := by
  induction r with
  | zero => exact fun _ _ _ => ⟨fun _ hi => flippedBits_high hi, by omega⟩
  | succ r ih =>
    intro out src hr
    have hrb : (r + 1) * b = r * b + b := by ring
    refine ⟨fun _ hi => flippedBits_high hi, fun q hq => ?_⟩
    rcases Nat.lt_succ_iff_lt_or_eq.1 hq with h | rfl
    · rw [flippedBits_later h]
      exact (ih _ _ (by omega)).2 q h
    · rw [flippedBits_first hm hr]
      exact blockCount_ok mode maxFlips src

/-- A sub-block's flips, counted in the word (43_channel.md R130). -/
theorem popcount_subBlock {ww b j : Nat} {x : Word} (hb : b ≤ 32) :
    popcount (subBlock ww b j x) = popcountBelow (x >>> (ww - b - j * b)) b := by
  have hhigh : ∀ i, b ≤ i → (subBlock ww b j x).getLsbD i = false := by
    intro i hi
    rw [subBlock, BitVec.getLsbD_and, lowMask_getLsbD]
    simp [show ¬ i < b by omega]
  rw [popcount, popcountBelow_of_high_zero hb hhigh]
  apply popcountBelow_congr
  intro i hi
  rw [subBlock, BitVec.getLsbD_and, lowMask_getLsbD]
  simp [hi, show i < 32 by omega]

/-! ## The requests of the loop in mode 0 -/

/-- One block in mode 0 sends the requests of its count and takes one listed count (43_channel.md R132). -/
theorem randomBlock_requests (b maxFlips : Nat) (src : Source) :
    (blockPositions b (rndCount maxFlips src).1 (rndCount maxFlips src).2).2.requests =
      src.requests ++ randomRequests b maxFlips [(rndCount maxFlips src).1] := by
  by_cases h : (rndCount maxFlips src).1 = 0
  · simp [h, randomRequests]
  · simp [blockPositions_of_ne_zero h, h, randomRequests]

theorem randomBlock_counts (b maxFlips : Nat) (src : Source) :
    (blockPositions b (rndCount maxFlips src).1 (rndCount maxFlips src).2).2.counts = src.counts.tail := by
  by_cases h : (rndCount maxFlips src).1 = 0
  · simp [h]
  · simp [blockPositions_of_ne_zero h]

theorem randomRequests_cons (b maxFlips n : Nat) (ns : List Nat) :
    randomRequests b maxFlips (n :: ns) = randomRequests b maxFlips [n] ++ randomRequests b maxFlips ns := by
  simp [randomRequests]

/-- In mode 0 the loop draws one count for each block, each the answer to its own request, sends the requests of these counts
in their order, and flips that many bits in the block (43_channel.md R132, R133). -/
theorem corruptBlocks_random {b maxFlips : Nat} (hm : maxFlips ≤ b) (r : Nat) : ∀ (out : Word) (src : Source), r * b ≤ 32 →
    ∃ ns : List Nat, ns.length = r ∧
      (corruptBlocks b maxFlips .random r out src).2.requests = src.requests ++ randomRequests b maxFlips ns ∧
      ∀ j, j < r →
        ns.getD j 0 = countAnswer maxFlips (src.counts.getD j
          (Config.freeCount (src.requests.length + (randomRequests b maxFlips (ns.take j)).length))) ∧
        ns.getD j 0 = popcountBelow (flippedBits b maxFlips .random r out src >>> ((r - 1 - j) * b)) b := by
  induction r with
  | zero => exact fun _ _ _ => ⟨[], rfl, by simp [corruptBlocks, randomRequests], by omega⟩
  | succ r ih =>
    intro out src hr
    have hrb : (r + 1) * b = r * b + b := by ring
    let flips := blockPositions b (rndCount maxFlips src).1 (rndCount maxFlips src).2
    obtain ⟨ns, hlen, hreq, hns⟩ := ih (out ^^^ (flips.1 <<< (r * b))) flips.2 (by omega)
    refine ⟨(rndCount maxFlips src).1 :: ns, by simp [hlen], ?_, fun j hj => ?_⟩
    · rw [randomRequests_cons, ← List.append_assoc, ← randomBlock_requests]
      exact hreq
    · cases j with
      | zero => exact ⟨by cases h : src.counts <;> simp [rndCount, h, randomRequests],
          (flippedBits_first (mode := .random) hm hr out src).symm⟩
      | succ j =>
        obtain ⟨hanswer, hflips⟩ := hns j (by omega)
        rw [show flips.2.counts = _ from randomBlock_counts b maxFlips src,
          show flips.2.requests = _ from randomBlock_requests b maxFlips src] at hanswer
        refine ⟨?_, ?_⟩
        · rw [List.getD_cons_succ, hanswer, List.take_succ_cons, randomRequests_cons b maxFlips _ (ns.take j)]
          cases src.counts <;> simp [Nat.add_assoc]
        · rw [show r + 1 - 1 - (j + 1) = r - 1 - j by omega, flippedBits_later (by omega)]
          exact hflips

end Sys2Proof.Machine
end

