-- ==== Sys2Proof/Laws/Memory.lean ====
section
/-! SUPPORT. The laws of the table as memory: read after write, the canonical form kept by every operation, and what the
list of present entries holds. -/

namespace Sys2Proof.Machine

/-! ## Read after write -/

/-- A read of the entry just written gives the value written (20_memory.md R50). -/
@[simp] theorem memRead_memWrite_same (m : Memory) (a : Nat) (v : Word) : memRead (memWrite m a v) a = some v := by
  induction m with
  | nil => simp [memWrite, memRead]
  | cons e rest ih =>
    obtain ⟨b, w⟩ := e
    simp only [memWrite]
    split
    · simp [memRead]
    · split
      · simp [memRead]
      · simp only [memRead]
        rw [if_neg (by omega), ih]

/-- A write leaves every other entry alone (41_codebook.md R102). -/
theorem memRead_memWrite_other (m : Memory) {a b : Nat} (v : Word) (h : b ≠ a) :
    memRead (memWrite m a v) b = memRead m b := by
  induction m with
  | nil => simp [memWrite, memRead, Ne.symm h]
  | cons e rest ih =>
    obtain ⟨c, w⟩ := e
    simp only [memWrite]
    split
    · simp [memRead, Ne.symm h]
    · split
      · subst_vars; simp [memRead, Ne.symm h]
      · simp only [memRead, ih]

/-- What a read finds after a write (20_memory.md R50). -/
theorem memRead_memWrite (m : Memory) (a b : Nat) (v : Word) :
    memRead (memWrite m a v) b = if b = a then some v else memRead m b := by
  split
  · subst_vars; simp
  · exact memRead_memWrite_other m v ‹_›

/-! ## The canonical form -/

theorem wf_tail {e : Nat × Word} {m : Memory} (h : Memory.wf (e :: m) = true) : Memory.wf m = true := by
  cases m with
  | nil => rfl
  | cons f rest => simp only [Memory.wf, Bool.and_eq_true] at h; exact h.2

/-- A canonical list with a lower entry in front is canonical. -/
theorem wf_cons {e : Nat × Word} {m : Memory} (h : Memory.wf m = true)
    (hlt : ∀ f ∈ m.head?, e.1 < f.1) : Memory.wf (e :: m) = true := by
  cases m with
  | nil => rfl
  | cons f rest => simp only [Memory.wf, Bool.and_eq_true, decide_eq_true_eq]; exact ⟨hlt f rfl, h⟩

theorem memWrite_head {m : Memory} {a : Nat} {v : Word} {f : Nat × Word} (h : f ∈ (memWrite m a v).head?) :
    f.1 = a ∨ ∃ e ∈ m.head?, f.1 = e.1 := by
  cases m with
  | nil => simp [memWrite] at h; left; simp [← h]
  | cons e rest =>
    obtain ⟨b, w⟩ := e
    simp only [memWrite] at h
    split at h
    · simp at h; left; simp [← h]
    · split at h
      · simp at h; left; simp [← h]
      · simp at h; right; exact ⟨(b, w), rfl, by simp [← h]⟩

/-- A write keeps the canonical form. -/
theorem memWrite_wf {m : Memory} (a : Nat) (v : Word) (h : Memory.wf m = true) :
    Memory.wf (memWrite m a v) = true := by
  induction m with
  | nil => rfl
  | cons e rest ih =>
    obtain ⟨b, w⟩ := e
    simp only [memWrite]
    split
    · exact wf_cons h (by simpa using ‹a < b›)
    · split
      · subst_vars
        refine wf_cons (wf_tail h) ?_
        cases rest with
        | nil => simp
        | cons f t => simp only [Memory.wf, Bool.and_eq_true, decide_eq_true_eq] at h; simpa using h.1
      · refine wf_cons (ih (wf_tail h)) ?_
        intro f hf
        rcases memWrite_head hf with hfa | ⟨g, hg, hfg⟩
        · simp only [hfa]; omega
        · cases rest with
          | nil => simp at hg
          | cons g' t =>
            simp only [Memory.wf, Bool.and_eq_true, decide_eq_true_eq] at h
            simp only [List.head?_cons, Option.mem_def, Option.some.injEq] at hg
            subst hg
            rw [hfg]
            exact h.1

theorem mapIdx_wf_from (l : List Word) (n : Nat) :
    Memory.wf (l.mapIdx fun a v => (a + n, v)) = true := by
  induction l generalizing n with
  | nil => rfl
  | cons x t ih =>
    rw [List.mapIdx_cons]
    have := ih (n + 1)
    refine wf_cons ?_ ?_
    · convert this using 3
      funext a v; simp; omega
    · cases t with
      | nil => simp
      | cons y u => simp

/-- A loaded table is in canonical form. -/
theorem mapIdx_wf (l : List Word) : Memory.wf (l.mapIdx fun a v => (a, v)) = true :=
  mapIdx_wf_from l 0

theorem memRead_mapIdx_from (l : List Word) (n a : Nat) :
    memRead (l.mapIdx fun b v => (b + n, v)) (a + n) = l[a]? := by
  induction l generalizing n a with
  | nil => simp [memRead]
  | cons x t ih =>
    rw [List.mapIdx_cons]
    simp only [memRead]
    cases a with
    | zero => simp
    | succ a =>
      rw [if_neg (by omega)]
      have := ih (n + 1) a
      rw [List.getElem?_cons_succ, ← this]
      congr 1
      · congr 1; funext b v; simp; omega
      · omega

/-- Entry `a` of a loaded table is the `a`-th codeword, and past the last codeword no entry is present (41_codebook.md
R106). -/
@[simp] theorem memRead_mapIdx (l : List Word) (a : Nat) :
    memRead (l.mapIdx fun b v => (b, v)) a = l[a]? := memRead_mapIdx_from l 0 a

/-! ## The present entries -/

/-- An entry is listed exactly when it is a present symbol with its codeword (10_state.md R25). -/
@[simp] theorem mem_codebook {s : State} {a : Nat} {v : Word} :
    (a, v) ∈ codebook s ↔ a < symbolCount s ∧ memRead s.block.lut a = some v := by
  simp only [codebook, List.mem_filterMap, List.mem_range, Option.map_eq_some_iff, Prod.mk.injEq]
  constructor
  · rintro ⟨b, hb, w, hw, rfl, rfl⟩; exact ⟨hb, hw⟩
  · rintro ⟨h, hv⟩; exact ⟨a, h, v, hv, rfl, rfl⟩

/-- The present entries are listed in ascending order of symbol. -/
theorem codebook_sorted (s : State) : (codebook s).Pairwise (fun e f => e.1 < f.1) := by
  unfold codebook
  rw [List.pairwise_filterMap]
  refine (List.pairwise_lt_range).imp ?_
  intro a b hab e he f hf
  simp only [Option.map_eq_some_iff] at he hf
  obtain ⟨_, _, rfl⟩ := he
  obtain ⟨_, _, rfl⟩ := hf
  exact hab

/-- The list of present entries depends on the table and on K only. -/
theorem codebook_congr {s t : State} (hk : t.k = s.k) (hb : t.block.lut = s.block.lut) : codebook t = codebook s := by
  simp only [codebook, symbolCount, hk, hb]

/-- The list of present entries is empty exactly when no symbol is present. -/
theorem codebook_eq_nil {s : State} :
    codebook s = [] ↔ ∀ a, a < symbolCount s → memRead s.block.lut a = none := by
  rw [List.eq_nil_iff_forall_not_mem]
  constructor
  · intro h a ha
    cases hv : memRead s.block.lut a with
    | none => rfl
    | some v => exact absurd (mem_codebook.2 ⟨ha, hv⟩) (h (a, v))
  · rintro h ⟨a, v⟩ hm
    obtain ⟨ha, hv⟩ := mem_codebook.1 hm
    rw [h a ha] at hv
    cases hv

/-- At most `2^K` symbols are present. -/
theorem presentCount_le (s : State) : presentCount s ≤ symbolCount s := by
  unfold presentCount codebook
  exact (List.length_filterMap_le _ _).trans (by simp)

/-- A value read is listed. -/
theorem mem_of_memRead {m : Memory} {a : Nat} {v : Word} (h : memRead m a = some v) : (a, v) ∈ m := by
  induction m with
  | nil => cases h
  | cons e rest ih =>
    obtain ⟨b, w⟩ := e
    simp only [memRead] at h
    split at h
    · subst_vars; cases h; exact List.mem_cons_self ..
    · exact List.mem_cons_of_mem _ (ih h)

end Sys2Proof.Machine
end

