-- ==== Sys2Proof/Laws/Codebook.lean ====
section
/-! SUPPORT. What the searches of CodebookBuilder find, said over the lists they walk (41_codebook.md R101, R105). -/

namespace Sys2Proof.Machine

/-! ## Verification -/

/-- No pair of the list is nearer than `d` exactly when the search for one finds none (41_codebook.md R101). -/
theorem firstViolation_eq_none {w d : Nat} {l : List (Nat × Word)} :
    firstViolation w d l = none ↔ l.Pairwise fun e f => d ≤ hammingDistance e.2 f.2 w := by
  induction l with
  | nil => simp [firstViolation]
  | cons e rest ih =>
    obtain ⟨i, ci⟩ := e
    simp only [firstViolation, List.pairwise_cons]
    cases hf : rest.find? (fun e => decide (hammingDistance ci e.2 w < d)) with
    | some f =>
      simp only [reduceCtorEq, false_iff, not_and]
      intro h
      have h1 := List.find?_some (p := fun e : Nat × Word => decide (hammingDistance ci e.2 w < d)) hf
      have h2 := h f (List.mem_of_find?_eq_some hf)
      simp only [decide_eq_true_eq] at h1
      omega
    | none =>
      rw [List.find?_eq_none] at hf
      simp only [ih]
      constructor
      · exact fun h => ⟨fun f hm => by simpa using hf f hm, h⟩
      · exact fun h => h.2

/-- The pair found splits the list: everything before its first entry is far from everything after itself, and between the
two entries nothing is too near the first (41_codebook.md R101). -/
theorem firstViolation_eq_some {w d : Nat} {l : List (Nat × Word)} {i j : Nat} (h : firstViolation w d l = some (i, j)) :
    ∃ before ci between cj after, l = before ++ (i, ci) :: (between ++ (j, cj) :: after) ∧
      hammingDistance ci cj w < d ∧ (∀ f ∈ between, d ≤ hammingDistance ci f.2 w) ∧
      (before.Pairwise fun e f => d ≤ hammingDistance e.2 f.2 w) ∧
      ∀ e ∈ before, ∀ f ∈ (i, ci) :: (between ++ (j, cj) :: after), d ≤ hammingDistance e.2 f.2 w := by
  induction l with
  | nil => simp [firstViolation] at h
  | cons e rest ih =>
    obtain ⟨a, ca⟩ := e
    simp only [firstViolation] at h
    cases hf : rest.find? (fun e => decide (hammingDistance ca e.2 w < d)) with
    | some f =>
      rw [hf] at h
      simp only [Option.some.injEq, Prod.mk.injEq] at h
      obtain ⟨rfl, rfl⟩ := h
      obtain ⟨hp, between, after, rfl, hb⟩ := List.find?_eq_some_iff_append.1 hf
      refine ⟨[], ca, between, f.2, after, rfl, by simpa using hp, ?_, by simp, by simp⟩
      intro g hg
      have := hb g hg
      simpa using this
    | none =>
      rw [hf] at h
      obtain ⟨before, ci, between, cj, after, rfl, h1, h2, h3, h4⟩ := ih h
      rw [List.find?_eq_none] at hf
      have ha : ∀ f ∈ before ++ (i, ci) :: (between ++ (j, cj) :: after), d ≤ hammingDistance ca f.2 w := by
        intro f hm
        simpa using hf f hm
      refine ⟨(a, ca) :: before, ci, between, cj, after, rfl, h1, h2, ?_, ?_⟩
      · exact List.pairwise_cons.2 ⟨fun f hm => ha f (List.mem_append_left _ hm), h3⟩
      · intro e he f hm
        rcases List.mem_cons.1 he with rfl | he
        · exact ha f (List.mem_append_right _ hm)
        · exact h4 e he f hm

/-- The verification passes exactly when every entry fits and every pair is far enough (41_codebook.md R101). -/
theorem verifyEntries_eq_pass {l : List (Nat × Word)} {w d : Nat} :
    verifyEntries l w d = .pass ↔
      (∀ e ∈ l, e.2.toNat < 2 ^ w) ∧ l.Pairwise fun e f => d ≤ hammingDistance e.2 f.2 w := by
  unfold verifyEntries
  cases hf : l.find? (fun e => !fitsBits w e.2) with
  | some e =>
    simp only [reduceCtorEq, false_iff, not_and]
    intro h
    have h1 := List.find?_some (p := fun e : Nat × Word => !fitsBits w e.2) hf
    have h2 := fitsBits_eq_true.2 (h e (List.mem_of_find?_eq_some hf))
    simp [h2] at h1
  | none =>
    rw [List.find?_eq_none] at hf
    have hfit : ∀ e ∈ l, e.2.toNat < 2 ^ w := by
      intro e he
      have := hf e he
      simpa using this
    cases hv : firstViolation w d l with
    | some p =>
      obtain ⟨i, j⟩ := p
      simp only [reduceCtorEq, false_iff, not_and]
      intro _ hp
      rw [firstViolation_eq_none.2 hp] at hv
      cases hv
    | none => simpa using ⟨fun e v he => hfit (e, v) he, firstViolation_eq_none.1 hv⟩

/-! ## Generation -/

/-- What the accepted codewords are when the next candidate is `c`: below `c`, ascending, far from each other, and every
candidate below `c` left out is too near a smaller accepted one (41_codebook.md R105). -/
structure GreedyInv (w d c : Nat) (acc : List Word) : Prop where
  below : ∀ a ∈ acc, a.toNat < c
  ascending : acc.Pairwise fun a b => a.toNat < b.toNat
  far : acc.Pairwise fun a b => d ≤ hammingDistance a b w
  maximal : ∀ x : Word, x.toNat < c → x ∉ acc → ∃ a ∈ acc, a.toNat < x.toNat ∧ hammingDistance x a w < d

theorem hammingDistance_comm (a b : Word) (w : Nat) : hammingDistance a b w = hammingDistance b a w := by
  rw [hammingDistance, hammingDistance, BitVec.xor_comm]

theorem toWord_toNat {n : Nat} (h : n < 2 ^ 32) : (toWord n).toNat = n := by
  rw [toWord, BitVec.toNat_ofNat, Nat.mod_eq_of_lt h]

@[simp] theorem isAccepted_eq_true {w d : Nat} {acc : List Word} {c : Word} :
    isAccepted w d acc c = true ↔ ∀ a ∈ acc, d ≤ hammingDistance c a w := by
  simp [isAccepted]

/-- Nothing is accepted yet. -/
theorem greedyInv_nil (w d : Nat) : GreedyInv w d 0 [] :=
  ⟨by simp, by simp, by simp, by simp⟩

/-- An accepted candidate keeps what is known of the accepted codewords. -/
theorem greedyInv_accept {w d c : Nat} {acc : List Word} (hc : c < 2 ^ 32) (h : GreedyInv w d c acc)
    (ha : isAccepted w d acc (toWord c) = true) : GreedyInv w d (c + 1) (acc ++ [toWord c]) := by
  have hw := toWord_toNat hc
  rw [isAccepted_eq_true] at ha
  refine ⟨?_, ?_, ?_, ?_⟩
  · intro a hm
    rcases List.mem_append.1 hm with hm | hm
    · have := h.below a hm; omega
    · rw [List.mem_singleton.1 hm, hw]; omega
  · refine List.pairwise_append.2 ⟨h.ascending, by simp, ?_⟩
    intro a hm b hb
    rw [List.mem_singleton.1 hb, hw]
    exact h.below a hm
  · refine List.pairwise_append.2 ⟨h.far, by simp, ?_⟩
    intro a hm b hb
    rw [List.mem_singleton.1 hb, hammingDistance_comm]
    exact ha a hm
  · intro x hx hn
    have hne : x.toNat ≠ c := by
      intro he
      apply hn
      rw [List.mem_append, List.mem_singleton]
      right
      exact BitVec.eq_of_toNat_eq (by rw [hw, he])
    obtain ⟨a, hm, h1, h2⟩ := h.maximal x (by omega) (fun hm => hn (List.mem_append_left _ hm))
    exact ⟨a, List.mem_append_left _ hm, h1, h2⟩

/-- A refused candidate keeps what is known of the accepted codewords. -/
theorem greedyInv_refuse {w d c : Nat} {acc : List Word} (hc : c < 2 ^ 32) (h : GreedyInv w d c acc)
    (ha : isAccepted w d acc (toWord c) = false) : GreedyInv w d (c + 1) acc := by
  have hw := toWord_toNat hc
  refine ⟨fun a hm => by have := h.below a hm; omega, h.ascending, h.far, ?_⟩
  intro x hx hn
  by_cases he : x.toNat = c
  · have hxc : x = toWord c := BitVec.eq_of_toNat_eq (by rw [hw, he])
    rw [← Bool.not_eq_true, isAccepted_eq_true] at ha
    simp only [not_forall, not_le] at ha
    obtain ⟨a, hm, hlt⟩ := ha
    exact ⟨a, hm, by rw [he]; exact h.below a hm, by rw [hxc]; exact hlt⟩
  · exact h.maximal x (by omega) hn

/-- What the greedy loop answers: `n` codewords with a last accepted candidate, or fewer than `n` after the whole space
(41_codebook.md R105). -/
theorem greedyFrom_spec {n w d : Nat} (fuel : Nat) : ∀ (c : Nat) (acc : List Word), c + fuel ≤ 2 ^ 32 →
    acc.length < n → GreedyInv w d c acc →
    (∀ res, greedyFrom n w d fuel c acc = some res →
      ∃ e, e ≤ c + fuel ∧ res.length = n ∧ GreedyInv w d e res ∧ ∃ a ∈ res, a.toNat + 1 = e) ∧
    (greedyFrom n w d fuel c acc = none → ∃ res, res.length < n ∧ GreedyInv w d (c + fuel) res) := by
  induction fuel with
  | zero =>
    intro c acc _ hl h
    exact ⟨by simp [greedyFrom], fun _ => ⟨acc, hl, h⟩⟩
  | succ fuel ih =>
    intro c acc hc hl h
    have hc32 : c < 2 ^ 32 := by omega
    simp only [greedyFrom]
    cases ha : isAccepted w d acc (toWord c) with
    | false =>
      simp only [Bool.false_eq_true, if_false]
      have := ih (c + 1) acc (by omega) hl (greedyInv_refuse hc32 h ha)
      rwa [show c + 1 + fuel = c + (fuel + 1) by omega] at this
    | true =>
      simp only [if_true]
      have h' := greedyInv_accept hc32 h ha
      split
      · rename_i hn
        refine ⟨?_, by simp⟩
        intro res hres
        rw [Option.some.injEq] at hres
        subst hres
        exact ⟨c + 1, by omega, by simp [hn], h', toWord c, by simp, by rw [toWord_toNat hc32]⟩
      · rename_i hn
        have := ih (c + 1) (acc ++ [toWord c]) (by omega) (by simp; omega) h'
        rwa [show c + 1 + fuel = c + (fuel + 1) by omega] at this

/-- What `Greedy(N, W, D)` answers (41_codebook.md R105): the accepted codewords up to and with the last one, or fewer than
`n` after the whole space. -/
theorem greedy_spec {n w d : Nat} (hn : 1 ≤ n) (hw : w ≤ 32) :
    (∀ res, greedy n w d = some res →
      ∃ e, e ≤ 2 ^ w ∧ res.length = n ∧ GreedyInv w d e res ∧ ∃ a ∈ res, a.toNat + 1 = e) ∧
    (greedy n w d = none → ∃ res, res.length < n ∧ GreedyInv w d (2 ^ w) res) := by
  have h2 : 2 ^ w ≤ 2 ^ 32 := Nat.pow_le_pow_right (by decide) hw
  have h := greedyFrom_spec (n := n) (w := w) (d := d) (2 ^ w) 0 [] (by rw [Nat.zero_add]; exact h2)
    (by simp only [List.length_nil]; omega) (greedyInv_nil w d)
  rw [Nat.zero_add] at h
  exact h

end Sys2Proof.Machine
end

