-- ==== Sys2Proof/Laws/Codec.lean ====
section
/-! SUPPORT. What the nearest-codeword search finds, said over the list it walks (42_codec.md R121). -/

namespace Sys2Proof.Machine

/-- `(s, d)` is the answer of R121 over the entries of `l`: `d` is the distance of the entry of `s`, no entry is nearer, and
no entry as near has a lower symbol. -/
def IsNearest (r : Word) (w : Nat) (l : List (Nat × Word)) (s d : Nat) : Prop :=
  ∃ c, (s, c) ∈ l ∧ d = hammingDistance r c w ∧
    ∀ e ∈ l, d ≤ hammingDistance r e.2 w ∧ (hammingDistance r e.2 w = d → s ≤ e.1)

/-- Visiting one more entry with a higher symbol keeps the answer of R121: replaced only when strictly nearer. -/
theorem betterOf_isNearest {r : Word} {w : Nat} {seen : List (Nat × Word)} {best : Option (Nat × Nat)} {s : Nat}
    {c : Word} (hbest : match best with
      | none => seen = []
      | some (s', d') => IsNearest r w seen s' d')
    (hs : ∀ e ∈ seen, e.1 < s) :
    IsNearest r w (seen ++ [(s, c)]) (betterOf best s (hammingDistance r c w)).1
      (betterOf best s (hammingDistance r c w)).2 := by
  match best, hbest with
  | none, hbest =>
    subst hbest
    exact ⟨c, by simp [betterOf], rfl, by simp [betterOf]⟩
  | some (s', d'), hbest =>
    obtain ⟨c', hm, hd, hall⟩ := hbest
    simp only [betterOf]
    split
    · rename_i hlt
      refine ⟨c, by simp, rfl, ?_⟩
      intro e he
      rcases List.mem_append.1 he with he | he
      · have := (hall e he).1
        exact ⟨by omega, fun h => by omega⟩
      · rw [List.mem_singleton.1 he]
        exact ⟨Nat.le_refl _, fun _ => Nat.le_refl _⟩
    · rename_i hge
      refine ⟨c', List.mem_append_left _ hm, hd, ?_⟩
      intro e he
      rcases List.mem_append.1 he with he | he
      · exact hall e he
      · rw [List.mem_singleton.1 he]
        exact ⟨by simp only; omega, fun _ => Nat.le_of_lt (hs (s', c') hm)⟩

/-- An entry at distance 0 ends the search: no later entry, whose symbol is higher, changes the answer (42_codec.md R121). -/
theorem isNearest_append {r : Word} {w : Nat} {l l' : List (Nat × Word)} {s : Nat} (h : IsNearest r w l s 0)
    (hs : ∀ e ∈ l', s < e.1) : IsNearest r w (l ++ l') s 0 := by
  obtain ⟨c, hm, hd, hall⟩ := h
  refine ⟨c, List.mem_append_left _ hm, hd, ?_⟩
  intro e he
  rcases List.mem_append.1 he with he | he
  · exact hall e he
  · exact ⟨Nat.zero_le _, fun _ => Nat.le_of_lt (hs e he)⟩

/-- The search over the entries left, with the best of the entries seen, answers for both (42_codec.md R121). -/
theorem nearestFrom_isNearest {r : Word} {w : Nat} (l : List (Nat × Word)) :
    ∀ (seen : List (Nat × Word)) (best : Option (Nat × Nat)), (seen ++ l).Pairwise (fun e f => e.1 < f.1) →
    (match best with
      | none => seen = []
      | some (s', d') => IsNearest r w seen s' d') →
    match nearestFrom r w l best with
    | none => seen ++ l = []
    | some (s, d) => IsNearest r w (seen ++ l) s d := by
  induction l with
  | nil =>
    intro seen best _ hbest
    simp only [nearestFrom, List.append_nil]
    exact hbest
  | cons e rest ih =>
    intro seen best hsort hbest
    obtain ⟨s, c⟩ := e
    have hlt : ∀ e ∈ seen, e.1 < s := fun e he =>
      (List.pairwise_append.1 hsort).2.2 e he (s, c) (List.mem_cons_self ..)
    have hbetter := betterOf_isNearest (c := c) hbest hlt
    have hassoc : seen ++ (s, c) :: rest = (seen ++ [(s, c)]) ++ rest := by simp
    by_cases h0 : hammingDistance r c w = 0
    · rw [nearestFrom, if_pos h0]
      rw [h0] at hbetter
      have hzero : (betterOf best s 0).2 = 0 := by
        obtain ⟨_, _, _, hall⟩ := hbetter
        have := (hall (s, c) (by simp)).1
        simp only [h0] at this
        omega
      simp only
      rw [hassoc, hzero]
      rw [hzero] at hbetter
      refine isNearest_append hbetter ?_
      obtain ⟨c', hm, _, _⟩ := hbetter
      intro e he
      rw [hassoc] at hsort
      exact (List.pairwise_append.1 hsort).2.2 _ hm e he
    · rw [nearestFrom, if_neg h0, hassoc]
      exact ih (seen ++ [(s, c)]) (some (betterOf best s (hammingDistance r c w))) (hassoc ▸ hsort) hbetter

/-- `Nearest(r)` is the closed form of R121 over the present entries. -/
theorem nearest_isNearest {s : State} {r : Word} {a d : Nat} (h : nearest s r = some (a, d)) :
    IsNearest r s.block.cbWidth.toNat (codebook s) a d := by
  have := nearestFrom_isNearest (r := r) (w := s.block.cbWidth.toNat) (codebook s) [] none
    (by simpa using codebook_sorted s) rfl
  rw [nearest] at h
  rw [h] at this
  simpa using this

/-- `Nearest(r)` returns no symbol exactly when no entry is present. -/
theorem nearest_eq_none {s : State} {r : Word} : nearest s r = none ↔ codebook s = [] := by
  constructor
  · intro h
    have := nearestFrom_isNearest (r := r) (w := s.block.cbWidth.toNat) (codebook s) [] none
      (by simpa using codebook_sorted s) rfl
    rw [nearest] at h
    rw [h] at this
    simpa using this
  · intro h
    rw [nearest, h, nearestFrom]

end Sys2Proof.Machine
end

