-- ==== Sys2Proof/Laws/Encoding.lean ====
section
/-! SUPPORT. The fields of a control word put together and taken apart (30_encoding.md R61), and the rows of the table. -/

namespace Sys2Proof

/-- The bits of a control word, field by field (30_encoding.md R61). -/
theorem controlWord_getLsbD (op f1 f2 f3 : Nat) (m v : Bool) (i : Nat) :
    (controlWord op f1 f2 f3 m v).getLsbD i =
      if i < 7 then false else if i < 8 then v else if i < 9 then m
      else if i < 15 then f3.testBit (i - 9) else if i < 21 then f2.testBit (i - 15)
      else if i < 27 then f1.testBit (i - 21) else decide (i < 32) && op.testBit (i - 27) := by
  unfold controlWord
  simp only [BitVec.getLsbD_append, BitVec.getLsbD_ofNat, BitVec.getLsbD_ofBool]
  by_cases h7 : i < 7
  · simp [h7]
  by_cases h8 : i < 8
  · obtain rfl : i = 7 := by omega
    simp
  by_cases h9 : i < 9
  · obtain rfl : i = 8 := by omega
    simp
  by_cases h15 : i < 15
  · obtain ⟨k, rfl⟩ := Nat.exists_eq_add_of_le (show 9 ≤ i by omega)
    simp [show ¬ 9 + k < 7 by omega, show ¬ 9 + k < 8 by omega, show ¬ 9 + k - 7 < 1 by omega,
      show 9 + k - 7 - 1 - 1 = k by omega, show ¬ 9 + k - 7 - 1 < 1 by omega, show k < 6 by omega, h15]
  by_cases h21 : i < 21
  · obtain ⟨k, rfl⟩ := Nat.exists_eq_add_of_le (show 15 ≤ i by omega)
    simp [show ¬ 15 + k < 7 by omega, show ¬ 15 + k < 8 by omega, show ¬ 15 + k < 9 by omega,
      show ¬ 15 + k - 7 < 1 by omega, show 15 + k - 7 - 1 - 1 = k + 6 by omega, show ¬ 15 + k - 7 - 1 < 1 by omega,
      show k < 6 by omega, h21]
  by_cases h27 : i < 27
  · obtain ⟨k, rfl⟩ := Nat.exists_eq_add_of_le (show 21 ≤ i by omega)
    simp [show ¬ 21 + k < 7 by omega, show ¬ 21 + k < 8 by omega, show ¬ 21 + k < 9 by omega,
      show ¬ 21 + k < 15 by omega, show ¬ 21 + k - 7 < 1 by omega, show 21 + k - 7 - 1 - 1 = k + 6 + 6 by omega,
      show ¬ 21 + k - 7 - 1 < 1 by omega, show ¬ k + 6 + 6 < 6 by omega, show k < 6 by omega, h27]
  · obtain ⟨k, rfl⟩ := Nat.exists_eq_add_of_le (show 27 ≤ i by omega)
    simp [show ¬ 27 + k < 7 by omega, show ¬ 27 + k < 8 by omega, show ¬ 27 + k < 9 by omega,
      show ¬ 27 + k < 15 by omega, show ¬ 27 + k < 21 by omega, show ¬ 27 + k - 7 < 1 by omega,
      show 27 + k - 7 - 1 - 1 = k + 6 + 6 + 6 by omega, show ¬ 27 + k - 7 - 1 < 1 by omega,
      show ¬ k + 6 + 6 + 6 < 6 by omega, show ¬ k + 6 + 6 < 6 by omega,
      show (27 + k < 32) ↔ k < 5 by omega]

/-- A control word as its opcode and fields shifted to their places and joined, the way the rules of the commands write it. -/
theorem controlWord_eq_or {op f1 f2 f3 : Nat} (m v : Bool) (h1 : f1 < 64) (h2 : f2 < 64) (h3 : f3 < 64) :
    controlWord op f1 f2 f3 m v = (BitVec.ofNat 32 op <<< 27) ||| (BitVec.ofNat 32 f1 <<< 21) |||
      (BitVec.ofNat 32 f2 <<< 15) ||| (BitVec.ofNat 32 f3 <<< 9) ||| (BitVec.ofNat 32 m.toNat <<< 8) |||
      (BitVec.ofNat 32 v.toNat <<< 7) := by
  have hz : ∀ {f n i : Nat}, f < 2 ^ n → n ≤ i → f.testBit i = false := fun h hi =>
    Nat.testBit_lt_two_pow (h.trans_le (Nat.pow_le_pow_right (by decide) hi))
  apply BitVec.eq_of_getLsbD_eq
  intro i hi
  rw [controlWord_getLsbD]
  simp only [BitVec.getLsbD_or, BitVec.getLsbD_shiftLeft, BitVec.getLsbD_ofNat]
  have b1 : ∀ j, 6 ≤ j → f1.testBit j = false := fun j => hz (n := 6) (by simpa using h1)
  have b2 : ∀ j, 6 ≤ j → f2.testBit j = false := fun j => hz (n := 6) (by simpa using h2)
  have b3 : ∀ j, 6 ≤ j → f3.testBit j = false := fun j => hz (n := 6) (by simpa using h3)
  have bm : ∀ j, 1 ≤ j → m.toNat.testBit j = false := fun j => hz (n := 1) (by cases m <;> decide)
  have bv : ∀ j, 1 ≤ j → v.toNat.testBit j = false := fun j => hz (n := 1) (by cases v <;> decide)
  have m0 : m.toNat.testBit 0 = m := by cases m <;> decide
  have v0 : v.toNat.testBit 0 = v := by cases v <;> decide
  interval_cases i <;> simp [b1, b2, b3, bm, bv, m0, v0]

/-- A field of six bits read back (30_encoding.md R61). -/
theorem fieldF1_controlWord {op f1 f2 f3 : Nat} {m v : Bool} (h : f1 < 64) :
    fieldF1 (controlWord op f1 f2 f3 m v) = f1 := by
  have : (controlWord op f1 f2 f3 m v).extractLsb' 21 6 = BitVec.ofNat 6 f1 := by
    apply BitVec.eq_of_getLsbD_eq
    intro i hi
    simp only [BitVec.getLsbD_extractLsb', controlWord_getLsbD, BitVec.getLsbD_ofNat]
    simp [show ¬ 21 + i < 7 by omega, show ¬ 21 + i < 8 by omega, show ¬ 21 + i < 9 by omega,
      show ¬ 21 + i < 15 by omega, show 21 + i < 27 by omega]
  rw [fieldF1, this, BitVec.toNat_ofNat, Nat.mod_eq_of_lt (by simpa using h)]

theorem fieldF2_controlWord {op f1 f2 f3 : Nat} {m v : Bool} (h : f2 < 64) :
    fieldF2 (controlWord op f1 f2 f3 m v) = f2 := by
  have : (controlWord op f1 f2 f3 m v).extractLsb' 15 6 = BitVec.ofNat 6 f2 := by
    apply BitVec.eq_of_getLsbD_eq
    intro i hi
    simp only [BitVec.getLsbD_extractLsb', controlWord_getLsbD, BitVec.getLsbD_ofNat]
    simp [show ¬ 15 + i < 7 by omega, show ¬ 15 + i < 8 by omega, show ¬ 15 + i < 9 by omega,
      show 15 + i < 21 by omega]
  rw [fieldF2, this, BitVec.toNat_ofNat, Nat.mod_eq_of_lt (by simpa using h)]

theorem fieldF3_controlWord {op f1 f2 f3 : Nat} {m v : Bool} (h : f3 < 64) :
    fieldF3 (controlWord op f1 f2 f3 m v) = f3 := by
  have : (controlWord op f1 f2 f3 m v).extractLsb' 9 6 = BitVec.ofNat 6 f3 := by
    apply BitVec.eq_of_getLsbD_eq
    intro i hi
    simp only [BitVec.getLsbD_extractLsb', controlWord_getLsbD, BitVec.getLsbD_ofNat]
    simp [show ¬ 9 + i < 7 by omega, show ¬ 9 + i < 8 by omega, show 9 + i < 15 by omega]
  rw [fieldF3, this, BitVec.toNat_ofNat, Nat.mod_eq_of_lt (by simpa using h)]

@[simp] theorem fieldM_controlWord (op f1 f2 f3 : Nat) (mode : FlipMode) (v : Bool) :
    fieldM (controlWord op f1 f2 f3 mode.bit v) = mode := by
  cases mode <;> simp only [fieldM, controlWord_getLsbD, FlipMode.bit] <;> rfl

@[simp] theorem fieldV_controlWord (op f1 f2 f3 : Nat) (m : Bool) (variant : Variant) :
    fieldV (controlWord op f1 f2 f3 m variant.bit) = variant := by
  cases variant <;> simp only [fieldV, controlWord_getLsbD, Variant.bit] <;> rfl

/-- The control word with the fields of `w` and a mask on them: masking is field by field. -/
theorem controlWord_selects {op f1 f2 f3 : Nat} {m v : Bool} {row : OpcodeRow}
    (h : ∀ i < 32, (if row.mask.getLsbD i then (controlWord op f1 f2 f3 m v).getLsbD i else false) =
      row.pattern.getLsbD i) :
    row.selects (controlWord op f1 f2 f3 m v) = true := by
  rw [OpcodeRow.selects, beq_iff_eq]
  apply BitVec.eq_of_getLsbD_eq
  intro i hi
  rw [BitVec.getLsbD_and, ← h i hi]
  cases row.mask.getLsbD i <;> simp

/-! ## The rows of the table -/

/-- A decoded instruction comes from a row that the control word selects (30_encoding.md R65). -/
theorem decode_row {c : Command} {i : Instr} (h : decodeCommand c = .instr i) :
    ∃ row ∈ opcodeRows, row.selects c.cw = true ∧ row.operands c = i := by
  unfold decodeCommand at h
  cases hf : opcodeRows.find? (fun row => row.selects c.cw) with
  | none => rw [hf] at h; cases h
  | some r =>
    rw [hf] at h
    exact ⟨r, List.mem_of_find?_eq_some hf, List.find?_some (p := fun row : OpcodeRow => row.selects c.cw) hf,
      Decoded.instr.inj h⟩

/-- A control word that a row selects has the row's opcode (30_encoding.md R62). -/
theorem selects_opcode {row : OpcodeRow} (h : row ∈ opcodeRows) {cw : Word} (hs : row.selects cw = true) :
    cw.extractLsb' 27 5 = row.pattern.extractLsb' 27 5 := by
  have hm : ∀ r ∈ opcodeRows, r.mask.extractLsb' 27 5 = 31#5 := by simp [opcodeRows]
  rw [OpcodeRow.selects, beq_iff_eq] at hs
  rw [← hs, BitVec.extractLsb'_and, hm row h]
  exact (BitVec.and_allOnes (x := cw.extractLsb' 27 5)).symm

/-- A control word that a row selects has the row's pattern wherever the row's mask is set (30_encoding.md R62). -/
theorem selects_bit {row : OpcodeRow} {cw : Word} (h : row.selects cw = true) {i : Nat} (hm : row.mask.getLsbD i = true) :
    cw.getLsbD i = row.pattern.getLsbD i := by
  rw [OpcodeRow.selects, beq_iff_eq] at h
  rw [← h, BitVec.getLsbD_and, hm, Bool.and_true]

theorem fieldF1_lt (cw : Word) : fieldF1 cw < 64 := (cw.extractLsb' 21 6).isLt

theorem fieldF2_lt (cw : Word) : fieldF2 cw < 64 := (cw.extractLsb' 15 6).isLt

theorem fieldF3_lt (cw : Word) : fieldF3 cw < 64 := (cw.extractLsb' 9 6).isLt

@[simp] theorem fieldM_bit (cw : Word) : (fieldM cw).bit = cw.getLsbD 8 := by
  unfold fieldM
  cases cw.getLsbD 8 <;> rfl

@[simp] theorem fieldV_bit (cw : Word) : (fieldV cw).bit = cw.getLsbD 7 := by
  unfold fieldV
  cases cw.getLsbD 7 <;> rfl

end Sys2Proof
end

