-- ==== Sys2Proof/Laws/Exec.lean ====
section
/-! SUPPORT. What executing an instruction can do, said once: the eight shapes of an answer, and what the next state of
each one keeps. Proofs about all instructions start here and unfold no meaning. -/

namespace Sys2Proof.Machine

/-! ## Answers that change nothing else -/

/-- An instruction whose meaning ends with OK on the state itself answers and keeps the rest. -/
theorem answersAndKeeps_of_finish {i : Instr} {s : State} {r0 r1 : Word} (h : exec i s = finish r0 r1 s) :
    AnswersAndKeeps i s .ok r0 r1 :=
  ⟨respond .ok r0 r1 s, h, by simp [Answered], by simp [Untouched]⟩

/-- An instruction whose meaning raises an error fails with it (60_exceptions.md R163). -/
theorem fails_of_raise {i : Instr} {s : State} {e : ErrorStatus} {info : Word} (h : exec i s = raise e info s) :
    Fails i s e info :=
  ⟨respond (.error e) 0 info s, h, by simp [Answered], by simp [Untouched]⟩

/-! ## The shapes -/

/-- The shapes of the answer of an instruction. -/
inductive ExecShape (i : Instr) (s : State) : Prop where
  /-- it fails with an error of the table of 60_exceptions.md R161, and nothing else changes -/
  | fail (e : ErrorStatus) (info : Word) (h : exec i s = raise e info s) (he : mayAnswer i e = true)
  /-- it answers OK, and nothing else changes -/
  | keep (r0 r1 : Word) (h : exec i s = finish r0 r1 s) (h1 : ∀ a v, i ≠ .cbWrite a v) (h2 : ∀ w d, i ≠ .cbSeal w d)
      (h3 : ∀ w d n, i ≠ .cbGen w d n) (h4 : ∀ w b m mode x, i ≠ .corrupt w b m mode x)
  /-- CB_WRITE stores one entry (41_codebook.md R102) -/
  | write (a v : Word) (hi : i = .cbWrite a v) (hs : s.block.cbSealed = false) (ha : a.toNat < 2 ^ s.k)
      (h : exec i s = finish 0 0 (writeEntry a.toNat v s))
  /-- CB_SEAL freezes the table (41_codebook.md R104) -/
  | seals (w d : Nat) (hi : i = .cbSeal w d) (hs : s.block.cbSealed = false) (hw : 1 ≤ w ∧ w ≤ 32)
      (hn : presentCount s ≠ 0) (hv : verify s w d = .pass)
      (h : exec i s = finish (toWord (presentCount s)) 0 (sealCodebook w d s))
  /-- CB_GEN builds the table and freezes it (41_codebook.md R106) -/
  | gens (w d n : Nat) (acc : List Word) (hi : i = .cbGen w d n) (hs : s.block.cbSealed = false)
      (hw : 1 ≤ w ∧ w ≤ 32) (hn : 1 ≤ n ∧ n ≤ 2 ^ s.k) (hg : greedy n w d = some acc)
      (h : exec i s = finish (toWord n) 0 (sealCodebook w d (loadTable acc s)))
  /-- CORRUPT asks the random source (43_channel.md R133) -/
  | corrupts (w b m : Nat) (mode : FlipMode) (x : Word) (hi : i = .corrupt w b m mode x) (hl : CorruptLegal w b m x)
      (h : exec i s = finish (corruptBlocks b m mode (w / b) x s.source).1 (budgetFlag s.block w (w / b) m)
        (setSource (corruptBlocks b m mode (w / b) x s.source).2 s))
  /-- DECODE stops over a sealed codebook with no entry (LOG 9) -/
  | stop (r : Word) (hi : i = .decode r) (hs : s.block.cbSealed = true) (hr : r.toNat < 2 ^ s.block.cbWidth.toNat)
      (hn : codebook s = []) (h : exec i s = .fault .nearestOfEmptyCodebook)

/-- The loop of VAL12_DEC ends with OK or with the error of a frame, and changes nothing (44_parityframe.md R147). -/
theorem joinFrames_shape (s : State) (l : List Frame) (i : Nat) (v : Word) :
    (∃ r0, joinFrames s l i v = finish r0 0 s) ∨ (∃ info, joinFrames s l i v = raise .structuralMismatch info s) ∨
      ∃ info, joinFrames s l i v = raise .parityMismatch info s := by
  induction l generalizing i v with
  | nil => left; exact ⟨v, rfl⟩
  | cons f rest ih =>
    simp only [joinFrames]
    cases checkFrame f .v0 with
    | structural => right; left; exact ⟨_, rfl⟩
    | parity => right; right; exact ⟨_, rfl⟩
    | payload n => exact ih _ _

/-- Every answer has one of the shapes. -/
theorem exec_shape (i : Instr) (s : State) : ExecShape i s := by
  cases i with
  | hdist w a b => exact .keep _ _ rfl (by simp) (by simp) (by simp) (by simp)
  | popcnt x => exact .keep _ _ rfl (by simp) (by simp) (by simp) (by simp)
  | cbStat => exact .keep _ _ rfl (by simp) (by simp) (by simp) (by simp)
  | cbWrite a v =>
    by_cases h1 : s.block.cbSealed = true
    · exact .fail .codebookLocked 0 (by simp [exec, execCbWrite, h1]) (by rfl)
    by_cases h2 : isSymbol s a = true
    · exact .write a v rfl (by simpa using h1) (by simpa using h2) (by simp [exec, execCbWrite, h1, h2])
    · exact .fail .invalidValueRange 0 (by simp [exec, execCbWrite, h1, h2]) (by rfl)
  | cbVerify w d =>
    by_cases h1 : widthInRange w = true
    · cases hv : verify s w d with
      | tooWide a => exact .fail .invalidValueRange (toWord a) (by simp [exec, execCbVerify, h1, hv]) rfl
      | violation i j =>
        exact .keep (passFlag false) (pairWord i j) (by simp only [exec, execCbVerify, h1, hv]; rfl)
          (by simp) (by simp) (by simp) (by simp)
      | pass =>
        exact .keep (passFlag true) 0 (by simp only [exec, execCbVerify, h1, hv]; rfl)
          (by simp) (by simp) (by simp) (by simp)
    · exact .fail .invalidValueRange 0 (by simp only [exec, execCbVerify, h1]; rfl) rfl
  | cbSeal w d =>
    by_cases h1 : s.block.cbSealed = true
    · exact .fail .codebookLocked 0 (by simp [exec, execCbSeal, h1]) (by rfl)
    by_cases h2 : widthInRange w = true
    swap
    · exact .fail .invalidValueRange 0 (by simp only [exec, execCbSeal, h1, h2]; rfl) rfl
    by_cases h3 : presentCount s = 0
    · exact .fail .invalidCodebook 0 (by simp only [exec, execCbSeal, h1, h2, h3]; rfl) rfl
    cases hv : verify s w d with
    | tooWide a => exact .fail .invalidValueRange (toWord a) (by simp [exec, execCbSeal, h1, h2, h3, hv]) rfl
    | violation i j => exact .fail .invalidCodebook (pairWord i j) (by simp [exec, execCbSeal, h1, h2, h3, hv]) rfl
    | pass =>
      exact .seals w d rfl (by simpa using h1) (by simpa using h2) h3 hv (by simp [exec, execCbSeal, h1, h2, h3, hv])
  | cbGen w d n =>
    by_cases h1 : s.block.cbSealed = true
    · exact .fail .codebookLocked 0 (by simp [exec, execCbGen, h1]) (by rfl)
    by_cases h2 : widthInRange w = true
    swap
    · exact .fail .invalidValueRange 0 (by simp only [exec, execCbGen, h1, h2]; rfl) rfl
    by_cases h3 : countInRange s n = true
    swap
    · exact .fail .invalidValueRange 0 (by simp only [exec, execCbGen, h1, h2, h3]; rfl) rfl
    cases hv : greedy n w d with
    | none => exact .fail .codebookExhausted 0 (by simp only [exec, execCbGen, h1, h2, h3, hv]; rfl) rfl
    | some acc =>
      exact .gens w d n acc rfl (by simpa using h1) (by simpa using h2) (by simpa using h3) hv
        (by simp only [exec, execCbGen, h1, h2, h3, hv]; rfl)
  | encode a =>
    by_cases h1 : s.block.cbSealed = true
    swap
    · exact .fail .codebookNotReady 0 (by simp only [exec, execEncode, h1]; rfl) (by rfl)
    by_cases h2 : isSymbol s a = true
    swap
    · exact .fail .unknownSymbol 0 (by simp only [exec, execEncode, h1, h2]; rfl) (by rfl)
    cases hm : memRead s.block.lut a.toNat with
    | none => exact .fail .unknownSymbol 0 (by simp only [exec, execEncode, h1, h2, hm]; rfl) (by rfl)
    | some c =>
      exact .keep c 0 (by simp only [exec, execEncode, h1, h2, hm]; rfl) (by simp) (by simp) (by simp) (by simp)
  | decode r =>
    by_cases h1 : s.block.cbSealed = true
    swap
    · exact .fail .codebookNotReady 0 (by simp only [exec, execDecode, h1]; rfl) (by rfl)
    by_cases h2 : fitsBits s.block.cbWidth.toNat r = true
    swap
    · exact .fail .invalidValueRange 0 (by simp only [exec, execDecode, h1, h2]; rfl) (by rfl)
    cases hm : nearest s r with
    | none =>
      exact .stop r rfl h1 (by simpa using h2) (nearest_eq_none.1 hm)
        (by simp only [exec, execDecode, h1, h2, hm]; rfl)
    | some p =>
      exact .keep _ _ (by simp only [exec, execDecode, h1, h2, hm]; rfl) (by simp) (by simp) (by simp) (by simp)
  | corrupt w b m mode x =>
    by_cases hl : CorruptLegal w b m x
    · refine .corrupts w b m mode x rfl hl ?_
      obtain ⟨h1, h2, h3, h4⟩ := hl
      have a1 := widthInRange_eq_true.2 h1
      have a2 := blockInRange_eq_true.2 ⟨⟨h2.1, h2.2.1⟩, h2.2.2⟩
      have a4 := fitsBits_eq_true.2 h4
      simp only [exec, execCorrupt, a1, a2, a4, Nat.not_lt.2 h3]
      rfl
    · refine .fail .invalidValueRange 0 ?_ rfl
      by_cases a1 : widthInRange w = true
      swap
      · simp only [exec, execCorrupt, a1]; rfl
      by_cases a2 : blockInRange w b = true
      swap
      · simp only [exec, execCorrupt, a1, a2]; rfl
      by_cases a3 : b < m
      · simp only [exec, execCorrupt, a1, a2, a3]; rfl
      by_cases a4 : fitsBits w x = true
      swap
      · simp only [exec, execCorrupt, a1, a2, a3, a4]; rfl
      exfalso; apply hl
      have b2 := blockInRange_eq_true.1 a2
      exact ⟨widthInRange_eq_true.1 a1, ⟨b2.1.1, b2.1.2, b2.2⟩, Nat.not_lt.1 a3, fitsBits_eq_true.1 a4⟩
  | frameEnc v x =>
    by_cases h1 : fitsBits 4 x = true
    · exact .keep _ _ (by simp only [exec, execFrameEnc, h1]; rfl) (by simp) (by simp) (by simp) (by simp)
    · exact .fail .invalidValueRange 0 (by simp only [exec, execFrameEnc, h1]; rfl) rfl
  | frameDec v x =>
    by_cases h1 : fitsBits 8 x = true
    swap
    · exact .fail .invalidValueRange 0 (by simp only [exec, execFrameDec, h1]; rfl) rfl
    cases hc : checkFrame (x.setWidth 8) v with
    | structural => exact .fail .structuralMismatch 0 (by simp only [exec, execFrameDec, h1, hc]; rfl) rfl
    | parity => exact .fail .parityMismatch 0 (by simp only [exec, execFrameDec, h1, hc]; rfl) rfl
    | payload n =>
      exact .keep _ _ (by simp only [exec, execFrameDec, h1, hc]; rfl) (by simp) (by simp) (by simp) (by simp)
  | val12Enc x =>
    by_cases h1 : fitsBits 12 x = true
    · exact .keep _ _ (by simp only [exec, execVal12Enc, h1]; rfl) (by simp) (by simp) (by simp) (by simp)
    · exact .fail .invalidValueRange 0 (by simp only [exec, execVal12Enc, h1]; rfl) rfl
  | val12Dec x =>
    by_cases h1 : fitsBits 24 x = true
    swap
    · exact .fail .invalidValueRange 0 (by simp only [exec, execVal12Dec, h1]; rfl) rfl
    have he : exec (.val12Dec x) s = joinFrames s [packedFrame x 0, packedFrame x 1, packedFrame x 2] 0 0 := by
      simp only [exec, execVal12Dec, h1]; rfl
    rcases joinFrames_shape s [packedFrame x 0, packedFrame x 1, packedFrame x 2] 0 0 with ⟨r0, h⟩ | ⟨r0, h⟩ | ⟨r0, h⟩
    · exact .keep _ _ (he.trans h) (by simp) (by simp) (by simp) (by simp)
    · exact .fail .structuralMismatch _ (he.trans h) rfl
    · exact .fail .parityMismatch _ (he.trans h) rfl

/-- A present entry is an entry of the codebook. -/
theorem hasEntry_iff (s : State) : HasEntry s ↔ codebook s ≠ [] := by
  rw [Ne, codebook_eq_nil]
  unfold HasEntry symbolCount
  push Not
  constructor
  · rintro ⟨a, v, ha, hv⟩; exact ⟨a, ha, by simp [hv]⟩
  · rintro ⟨a, ha, hv⟩
    obtain ⟨v, hv⟩ := Option.ne_none_iff_exists'.1 hv
    exact ⟨a, v, ha, hv⟩

/-- A next state is a response on a state whose host fields and K are as before; an error leaves that whole state as
before, with `R0` 0 (60_exceptions.md R161, R163). -/
theorem exec_next_cases {i : Instr} {s t : State} (h : exec i s = .next t) :
    ∃ st r0 r1 u, t = respond st r0 r1 u ∧ u.responses = s.responses ∧ u.pc = s.pc ∧ u.program = s.program ∧
      u.k = s.k ∧
      (∀ e, st = .error e → u = s ∧ r0 = 0 ∧ mayAnswer i e = true) := by
  rcases exec_shape i s with ⟨e, info, h', he⟩ | ⟨r0, r1, h', _⟩ | ⟨a, v, _, _, _, h'⟩ | ⟨w, d, _, _, _, _, _, h'⟩ |
    ⟨w, d, n, acc, _, _, _, _, _, h'⟩ | ⟨_, _, _, _, _, _, _, h'⟩ | ⟨_, _, _, _, _, h'⟩
  all_goals rw [h] at h'
  all_goals first | (cases h'; done) | skip
  · exact ⟨_, _, _, s, by simpa using (raise_eq_next.1 h'.symm).symm, rfl, rfl, rfl, rfl,
      by rintro e' he'; injection he' with he'; subst he'; exact ⟨rfl, rfl, he⟩⟩
  all_goals exact ⟨_, _, _, _, (finish_eq_next.1 h'.symm).symm, by simp, by simp, by simp, by simp, by simp⟩

/-! ## What an answer depends on -/

/-- Two answers of one instruction, from `s` and from `s'`: the same response and the same block left. From the same random
source they leave the same one, and an instruction other than CORRUPT leaves each source alone. -/
inductive SameAnswer (i : Instr) (s s' : State) : Result → Result → Prop where
  | next (st : Status) (r0 r1 : Word) (u u' : State) (hr : u.responses = s.responses)
      (hr' : u'.responses = s'.responses) (hp : u.pc = s.pc) (hp' : u'.pc = s'.pc) (hb : u'.block = u.block)
      (hs : s'.source = s.source → u'.source = u.source)
      (hn : (∀ w b m mode x, i ≠ .corrupt w b m mode x) → u.source = s.source ∧ u'.source = s'.source) :
      SameAnswer i s s' (.next (respond st r0 r1 u)) (.next (respond st r0 r1 u'))
  | fault (f : Fault) : SameAnswer i s s' (.fault f) (.fault f)

theorem sameAnswer_ite {i : Instr} {s s' : State} {c : Prop} [Decidable c] {a b a' b' : Result}
    (h : SameAnswer i s s' a a') (h' : SameAnswer i s s' b b') :
    SameAnswer i s s' (if c then a else b) (if c then a' else b') := by
  split <;> assumption

theorem joinFrames_congr {i : Instr} {s s' : State} (hb : s'.block = s.block) (l : List Frame) (n : Nat) (v : Word) :
    SameAnswer i s s' (joinFrames s l n v) (joinFrames s' l n v) := by
  induction l generalizing n v with
  | nil => exact .next _ _ _ _ _ rfl rfl rfl rfl hb id fun _ => ⟨rfl, rfl⟩
  | cons f rest ih =>
    simp only [joinFrames]
    cases checkFrame f .v0 with
    | structural => exact .next _ _ _ _ _ rfl rfl rfl rfl hb id fun _ => ⟨rfl, rfl⟩
    | parity => exact .next _ _ _ _ _ rfl rfl rfl rfl hb id fun _ => ⟨rfl, rfl⟩
    | payload n => exact ih _ _

/-- An answer depends on K, on the block and, for CORRUPT alone, on the random source (10_state.md R28). -/
theorem exec_congr (i : Instr) {s s' : State} (hk : s'.k = s.k) (hb : s'.block = s.block)
    (hs : (∀ w b m mode x, i ≠ .corrupt w b m mode x) ∨ s'.source = s.source) :
    SameAnswer i s s' (exec i s) (exec i s') := by
  obtain ⟨k, b, src, p, pc, r⟩ := s
  obtain ⟨k', b', src', p', pc', r'⟩ := s'
  obtain rfl : k' = k := hk
  obtain rfl : b' = b := hb
  cases i
  case corrupt w b m mode x =>
    rcases hs with hs | hs
    · exact absurd rfl (hs w b m mode x)
    obtain rfl : src' = src := hs
    simp only [exec, execCorrupt]
    repeat' apply sameAnswer_ite
    all_goals exact .next _ _ _ _ _ rfl rfl rfl rfl rfl (fun _ => rfl) fun h => absurd rfl (h w b m mode x)
  all_goals simp only [exec, execHdist, execPopcnt, execCbWrite, execCbVerify, execCbSeal, execCbGen, execCbStat,
    execEncode, execDecode, execFrameEnc, execFrameDec, execVal12Enc, execVal12Dec, verify, nearest, codebook,
    presentCount, presentMask, isSymbol, symbolCount, countInRange]
  all_goals repeat' first | apply sameAnswer_ite | exact joinFrames_congr (by rfl) _ _ _ | split
  all_goals first
    | exact .next _ _ _ _ _ rfl rfl rfl rfl rfl id fun _ => ⟨rfl, rfl⟩
    | exact .fault _

end Sys2Proof.Machine
end

