-- ==== Sys2Proof/Laws/Frames.lean ====
section
/-! SUPPORT. The frame functions bit by bit (44_parityframe.md R140 to R142), each a finite table checked by evaluation. -/

namespace Sys2Proof.Machine

/-- The parity check of variant 0 is the table of R140: `P[2] = f[5]`, `P[1] = f[4] ^ f[7]`, `P[0] = f[3] ^ f[6]`. -/
theorem parityOk_v0 (f : Frame) :
    parityOk f .v0 = (f.getLsbD 2 == f.getLsbD 5 && f.getLsbD 1 == (f.getLsbD 4 ^^ f.getLsbD 7) &&
      f.getLsbD 0 == (f.getLsbD 3 ^^ f.getLsbD 6)) := by
  revert f; decide

/-- The parity check of variant 1 is the table of R140: `P[1] = f[3] ^ f[5] ^ f[7]`, `P[0] = f[2] ^ f[4] ^ f[6]`. -/
theorem parityOk_v1 (f : Frame) :
    parityOk f .v1 = (f.getLsbD 1 == (f.getLsbD 3 ^^ f.getLsbD 5 ^^ f.getLsbD 7) &&
      f.getLsbD 0 == (f.getLsbD 2 ^^ f.getLsbD 4 ^^ f.getLsbD 6)) := by
  revert f; decide

/-- The frame of a payload checks as that payload (44_parityframe.md R142, R145). -/
@[simp] theorem checkFrame_frameOf (n : Nibble) (v : Variant) : checkFrame (frameOf n v) v = .payload n := by
  revert n
  cases v <;> decide

/-- "A byte passes `CheckFrame` exactly when it is `FrameOf(n, variant)` for its own `n = f[6:3]`" (44_parityframe.md
R142), the direction from the check. -/
theorem frameOf_checkFrame {f : Frame} {v : Variant} {n : Nibble} (h : checkFrame f v = .payload n) :
    frameOf n v = f := by
  have hn : n = f.extractLsb' 3 4 := by
    unfold checkFrame at h
    split at h
    · cases h
    · split at h
      · cases h
      · exact (FrameOutcome.payload.inj h).symm
  subst hn
  revert f
  cases v <;> decide

end Sys2Proof.Machine
end

