-- ==== Sys2Proof/Laws/PerInstr.lean ====
section
/-! SUPPORT. The family EncodesInItsRow, one lemma per constructor of Instr: the encoder writes a well-formed instruction as
a control word that the row of its own mnemonic selects, and the row's operand assembly reads the instruction back
(30_encoding.md R62, R63). -/

namespace Sys2Proof.Laws.EncodesInItsRow

/-- The row of the instruction's mnemonic selects its control word and reads its operands back. -/
def Statement (i : Instr) : Prop :=
  ∃ row ∈ opcodeRows, row.mnemonic = i.mnemonic ∧
    (i.wellFormed = true → row.selects (encodeCommand i).cw = true ∧ row.operands (encodeCommand i) = i)

/-- Row `n` of the table serves an instruction when the masked bits of its control word are the row's pattern and the row's
operand assembly gives the instruction back. -/
theorem of_row {i : Instr} (n : Nat) (hn : n < opcodeRows.length) {op f1 f2 f3 : Nat} {m v : Bool}
    (hcw : (encodeCommand i).cw = controlWord op f1 f2 f3 m v) (hmn : opcodeRows[n].mnemonic = i.mnemonic)
    (hbits : ∀ b < 32, (if opcodeRows[n].mask.getLsbD b then (controlWord op f1 f2 f3 m v).getLsbD b else false) =
      opcodeRows[n].pattern.getLsbD b)
    (hops : i.wellFormed = true → opcodeRows[n].operands (encodeCommand i) = i) : Statement i :=
  ⟨opcodeRows[n], List.getElem_mem hn, hmn, fun h => ⟨hcw ▸ controlWord_selects hbits, hops h⟩⟩

theorem hdist (width : Nat) (a b : Word) : Statement (.hdist width a b) := by
  refine of_row 0 (by decide) rfl rfl ?_ fun hf => ?_
  · intro b hb
    simp only [controlWord_getLsbD]
    interval_cases b <;> rfl
  · simp only [Instr.wellFormed, fitsField, decide_eq_true_eq] at hf
    simp [opcodeRows, encodeCommand, fieldF1_controlWord hf]

theorem popcnt (x : Word) : Statement (.popcnt x) := by
  refine of_row 1 (by decide) rfl rfl ?_ fun _ => ?_
  · intro b hb
    simp only [controlWord_getLsbD]
    interval_cases b <;> rfl
  · rfl

theorem cbWrite (symbol codeword : Word) : Statement (.cbWrite symbol codeword) := by
  refine of_row 2 (by decide) rfl rfl ?_ fun _ => ?_
  · intro b hb
    simp only [controlWord_getLsbD]
    interval_cases b <;> rfl
  · rfl

theorem cbVerify (width dmin : Nat) : Statement (.cbVerify width dmin) := by
  refine of_row 3 (by decide) rfl rfl ?_ fun hf => ?_
  · intro b hb
    simp only [controlWord_getLsbD]
    interval_cases b <;> rfl
  · simp only [Instr.wellFormed, fitsField, Bool.and_eq_true, decide_eq_true_eq] at hf
    simp [opcodeRows, encodeCommand, fieldF1_controlWord hf.1, fieldF2_controlWord hf.2]

theorem cbSeal (width dmin : Nat) : Statement (.cbSeal width dmin) := by
  refine of_row 4 (by decide) rfl rfl ?_ fun hf => ?_
  · intro b hb
    simp only [controlWord_getLsbD]
    interval_cases b <;> rfl
  · simp only [Instr.wellFormed, fitsField, Bool.and_eq_true, decide_eq_true_eq] at hf
    simp [opcodeRows, encodeCommand, fieldF1_controlWord hf.1, fieldF2_controlWord hf.2]

theorem cbGen (width dmin count : Nat) : Statement (.cbGen width dmin count) := by
  refine of_row 5 (by decide) rfl rfl ?_ fun hf => ?_
  · intro b hb
    simp only [controlWord_getLsbD]
    interval_cases b <;> rfl
  · simp only [Instr.wellFormed, fitsField, Bool.and_eq_true, decide_eq_true_eq] at hf
    simp [opcodeRows, encodeCommand, fieldF1_controlWord hf.1.1, fieldF2_controlWord hf.1.2, fieldF3_controlWord hf.2]

theorem cbStat : Statement .cbStat := by
  refine of_row 6 (by decide) rfl rfl ?_ fun _ => ?_
  · intro b hb
    simp only [controlWord_getLsbD]
    interval_cases b <;> rfl
  · rfl

theorem encode (symbol : Word) : Statement (.encode symbol) := by
  refine of_row 7 (by decide) rfl rfl ?_ fun _ => ?_
  · intro b hb
    simp only [controlWord_getLsbD]
    interval_cases b <;> rfl
  · rfl

theorem decode (received : Word) : Statement (.decode received) := by
  refine of_row 8 (by decide) rfl rfl ?_ fun _ => ?_
  · intro b hb
    simp only [controlWord_getLsbD]
    interval_cases b <;> rfl
  · rfl

theorem corrupt (width block maxFlips : Nat) (mode : FlipMode) (word : Word) : Statement (.corrupt width block maxFlips mode word) := by
  refine of_row 9 (by decide) rfl rfl ?_ fun hf => ?_
  · intro b hb
    simp only [controlWord_getLsbD]
    interval_cases b <;> rfl
  · simp only [Instr.wellFormed, fitsField, Bool.and_eq_true, decide_eq_true_eq] at hf
    simp [opcodeRows, encodeCommand, fieldF1_controlWord hf.1.1, fieldF2_controlWord hf.1.2, fieldF3_controlWord hf.2]

theorem frameEnc (variant : Variant) (payload : Word) : Statement (.frameEnc variant payload) := by
  refine of_row 10 (by decide) rfl rfl ?_ fun _ => ?_
  · intro b hb
    simp only [controlWord_getLsbD]
    interval_cases b <;> rfl
  · simp [opcodeRows, encodeCommand]

theorem frameDec (variant : Variant) (frame : Word) : Statement (.frameDec variant frame) := by
  refine of_row 11 (by decide) rfl rfl ?_ fun _ => ?_
  · intro b hb
    simp only [controlWord_getLsbD]
    interval_cases b <;> rfl
  · simp [opcodeRows, encodeCommand]

theorem val12Enc (value : Word) : Statement (.val12Enc value) := by
  refine of_row 12 (by decide) rfl rfl ?_ fun _ => ?_
  · intro b hb
    simp only [controlWord_getLsbD]
    interval_cases b <;> rfl
  · rfl

theorem val12Dec (frames : Word) : Statement (.val12Dec frames) := by
  refine of_row 13 (by decide) rfl rfl ?_ fun _ => ?_
  · intro b hb
    simp only [controlWord_getLsbD]
    interval_cases b <;> rfl
  · rfl

end Sys2Proof.Laws.EncodesInItsRow
end

