-- ==== Sys2Proof/Laws/Step.lean ====
section
/-! SUPPORT. What one step can do, said once; and that the host's placed command is the one the next step runs. -/

namespace Sys2Proof.Machine

/-- The four ways to a next state: the host has no move left, it resets, its command is illegal, or its command decodes to
an instruction that is executed (10_state.md R22, 30_encoding.md R65, R66, 70_reset_and_hazards.md R180, R188). -/
theorem step_cases {s t : State} (h : step s = .next t) :
    (nextMove s = none ∧ t = s) ∨
    ((nextMove s = some .reset ∨ ∃ c, nextMove s = some (.resetDuring c)) ∧ t = resetBlock s) ∨
    (∃ c, nextMove s = some (.command c) ∧ decodeCommand c = .illegalCommand ∧
      t = respond (.error .illegalCommand) 0 0 s) ∨
    ∃ c i, nextMove s = some (.command c) ∧ decodeCommand c = .instr i ∧ exec i s = .next t := by
  unfold step at h
  cases hm : nextMove s with
  | none => rw [hm] at h; exact .inl ⟨rfl, (Host.Outcome.next.inj h).symm⟩
  | some m =>
    rw [hm] at h
    cases m with
    | reset => exact .inr (.inl ⟨.inl rfl, (Host.Outcome.next.inj h).symm⟩)
    | resetDuring c => exact .inr (.inl ⟨.inr ⟨c, rfl⟩, (Host.Outcome.next.inj h).symm⟩)
    | command c =>
      simp only at h
      cases hd : decodeCommand c with
      | illegalCommand =>
        rw [hd] at h
        exact .inr (.inr (.inl ⟨c, rfl, hd, (raise_eq_next.1 h).symm⟩))
      | instr i =>
        rw [hd] at h
        exact .inr (.inr (.inr ⟨c, i, rfl, hd, h⟩))

/-- The command placed by withFetchWord is the host's next move. -/
@[simp] theorem nextMove_withFetchWord (s : State) (nbits w : Nat) :
    nextMove (s.withFetchWord nbits w) = some (.command (tableCommand nbits w)) := by
  simp [nextMove, State.withFetchWord]

end Sys2Proof.Machine
end

