-- ==== Sys2Proof/Machine/Pseudo.lean ====
section
/-! DEFINITION. What the host side writes down: the pseudo-commands (30_encoding.md R69) as lists of moves, and the
assembler spelling of a command (R68). No step uses this file. -/

namespace Sys2Proof.Machine

/-- An instruction as the host's move that presents it (30_encoding.md R60). -/
def present (i : Instr) : HostMove := .command (encodeCommand i)

/-- `BUILD_FIXED w=W dmin=D rows`: one CB_WRITE per row in the order written, then a CB_SEAL (30_encoding.md R69). -/
def buildFixed (w d : Nat) (rows : List (Word × Word)) : List HostMove :=
  rows.map (fun row => present (.cbWrite row.1 row.2)) ++ [present (.cbSeal w d)]

/-- The first command of `ROUNDTRIP s` (30_encoding.md R69). -/
def roundTripEncode (symbol : Word) : HostMove := present (.encode symbol)

/-- The second command of `ROUNDTRIP`: the host carries `R0` of the ENCODE into it (30_encoding.md R69, 10_state.md R20). -/
def roundTripDecode (answer : Response) : HostMove := present (.decode answer.r0)

/-- One `name=value` pair, the number in decimal (30_encoding.md R68). -/
def asmPair (name : String) (value : Nat) : String := " " ++ name ++ "=" ++ toString value

/-- The number an assembler line shows for a flip-count mode (30_encoding.md R68). -/
def asmBit (b : Bool) : Nat := if b then 1 else 0

/-- The assembler line of a command (30_encoding.md R68). -/
def asmLine (i : Instr) : String :=
  i.mnemonic ++
    match i with
    | .hdist width a b => asmPair "width" width ++ asmPair "a" a.toNat ++ asmPair "b" b.toNat
    | .popcnt x => asmPair "x" x.toNat
    | .cbWrite symbol codeword => asmPair "s" symbol.toNat ++ asmPair "cw" codeword.toNat
    | .cbVerify width dmin => asmPair "w" width ++ asmPair "dmin" dmin
    | .cbSeal width dmin => asmPair "w" width ++ asmPair "dmin" dmin
    | .cbGen width dmin count => asmPair "w" width ++ asmPair "dmin" dmin ++ asmPair "n" count
    | .cbStat => ""
    | .encode symbol => asmPair "s" symbol.toNat
    | .decode received => asmPair "r" received.toNat
    | .corrupt width block maxFlips mode word =>
      asmPair "w" width ++ asmPair "block" block ++ asmPair "max" maxFlips ++ asmPair "exact" (asmBit mode.bit) ++
        asmPair "word" word.toNat
    | .frameEnc variant payload => asmPair "v" (asmBit variant.bit) ++ asmPair "p" payload.toNat
    | .frameDec variant frame => asmPair "v" (asmBit variant.bit) ++ asmPair "f" frame.toNat
    | .val12Enc value => asmPair "val" value.toNat
    | .val12Dec frames => asmPair "f" frames.toNat

end Sys2Proof.Machine
end

