-- ==== Sys2Proof/Tests/Slice0.lean ====
section
/-! SUPPORT. The model's own tests: ill-formed terms, words written out from 30_encoding.md R62, single steps with the
values of spec/95_test_vectors.md, and for every obligation with hypotheses a witness that meets them. -/

namespace Sys2Proof.Tests

open Sys2Proof Sys2Proof.Machine

/-! ## Small states -/

/-- The block whose next command is `c`. -/
def withCommand (b : Block) (c : Command) : State := { State.reset with block := b, program := [.command c] }

/-- A state of this block with nothing else to it. -/
def ofBlock (b : Block) : State := { State.reset with block := b }

/-- A state whose random source has these answers listed. -/
def withDraws (b : Block) (counts : List Nat) (positions : List Word) : State :=
  { State.reset with block := b, source := { counts := counts, positions := positions, requests := [] } }

/-- The open table of 95_test_vectors.md D-codebook 1 after its last CB_WRITE. -/
def openBlock : Block :=
  { Block.reset with lut := [(0, 0x00), (1, 0x07), (2, 0x19), (3, 0x1E)] }

/-- The same table sealed with width 5 and minimum distance 3 (D-codebook 1, end state; D-codec 1). -/
def smallBook : Block := { lut := openBlock.lut, cbSealed := true, cbWidth := 5, cbDmin := 3 }

/-- The table of D-codec 3, sealed with width 8 and minimum distance 4. -/
def tieBook : Block := { lut := [(2, 0x0F), (5, 0xF0), (9, 0x00)], cbSealed := true, cbWidth := 8, cbDmin := 4 }

/-- A sealed codebook with no entry, which no run reaches (LOG 9). -/
def emptyBook : Block := { lut := [], cbSealed := true, cbWidth := 5, cbDmin := 3 }

/-- The last response of an answer: status code, `R0`, `R1`. -/
def answerOf : Result → Option (Nat × Word × Word)
  | .next t => t.responses.getLast?.map fun r => ((statusCode r.st).toNat, r.r0, r.r1)
  | .fault _ => none
  | .refused _ => none

/-- The answer of the next step from this block with this command. -/
def answer (b : Block) (cw da db : Word) : Option (Nat × Word × Word) := answerOf (step (withCommand b ⟨cw, da, db⟩))

/-- The block left by an answer. -/
def blockOf : Result → Option Block
  | .next t => some t.block
  | .fault _ => none
  | .refused _ => none

/-! ## Ill-formed terms (30_encoding.md R61: the fields are six bits) -/

theorem test_wf_hdist_width : (Instr.hdist 64 0 0).wellFormed = false := by decide
theorem test_wf_cbVerify_width : (Instr.cbVerify 64 3).wellFormed = false := by decide
theorem test_wf_cbVerify_dmin : (Instr.cbVerify 5 64).wellFormed = false := by decide
theorem test_wf_cbSeal_width : (Instr.cbSeal 64 3).wellFormed = false := by decide
theorem test_wf_cbSeal_dmin : (Instr.cbSeal 5 64).wellFormed = false := by decide
theorem test_wf_cbGen_width : (Instr.cbGen 64 3 4).wellFormed = false := by decide
theorem test_wf_cbGen_dmin : (Instr.cbGen 5 64 4).wellFormed = false := by decide
theorem test_wf_cbGen_count : (Instr.cbGen 5 3 64).wellFormed = false := by decide
theorem test_wf_corrupt_width : (Instr.corrupt 64 8 2 .random 0).wellFormed = false := by decide
theorem test_wf_corrupt_block : (Instr.corrupt 32 64 2 .random 0).wellFormed = false := by decide
theorem test_wf_corrupt_max : (Instr.corrupt 32 8 64 .random 0).wellFormed = false := by decide
/-- A value out of a command's range is well-formed: the command is selected and answers InvalidValueRange (R63). -/
theorem test_wf_out_of_range_is_well_formed : (Instr.corrupt 33 63 63 .exact 0).wellFormed = true := by decide

/-! ## Decoding, each word written out from the table of 30_encoding.md R62 (OP in bits 31:27, F1 26:21, F2 20:15, F3
14:9, M bit 8, V bit 7) -/

/-- OP 00001, F1 001000. -/
theorem test_decode_hdist : decodeCommand ⟨0b00001001000000000000000000000000, 0xCCCCCCCC, 0x33333333⟩ =
    .instr (.hdist 8 0xCCCCCCCC 0x33333333) := by decide
/-- OP 00010. -/
theorem test_decode_popcnt : decodeCommand ⟨0b00010000000000000000000000000000, 0xF3, 0xDEADBEEF⟩ =
    .instr (.popcnt 0xF3) := by decide
/-- OP 00011. -/
theorem test_decode_cbWrite : decodeCommand ⟨0b00011000000000000000000000000000, 0xA, 0xCCCCCCCC⟩ =
    .instr (.cbWrite 0xA 0xCCCCCCCC) := by decide
/-- OP 00100, F1 000101, F2 000011. -/
theorem test_decode_cbVerify : decodeCommand ⟨0b00100000101000011000000000000000, 0, 0⟩ = .instr (.cbVerify 5 3) := by
  decide
/-- OP 00101, F1 100000, F2 000111. -/
theorem test_decode_cbSeal : decodeCommand ⟨0b00101100000000111000000000000000, 0, 0⟩ = .instr (.cbSeal 32 7) := by
  decide
/-- OP 00110, F1 000101, F2 000011, F3 000100. -/
theorem test_decode_cbGen : decodeCommand ⟨0b00110000101000011000100000000000, 0, 0⟩ = .instr (.cbGen 5 3 4) := by
  decide
/-- OP 00111. -/
theorem test_decode_cbStat : decodeCommand ⟨0b00111000000000000000000000000000, 0, 0⟩ = .instr .cbStat := by decide
/-- OP 01000. -/
theorem test_decode_encode : decodeCommand ⟨0b01000000000000000000000000000000, 0xA, 0⟩ = .instr (.encode 0xA) := by decide
/-- OP 01001. -/
theorem test_decode_decode : decodeCommand ⟨0b01001000000000000000000000000000, 0x1F, 0⟩ = .instr (.decode 0x1F) := by
  decide
/-- OP 01010, F1 100000, F2 001000, F3 000010, M 0. -/
theorem test_decode_corrupt : decodeCommand ⟨0b01010100000001000000010000000000, 0xCCCCCCCC, 0⟩ =
    .instr (.corrupt 32 8 2 .random 0xCCCCCCCC) := by decide
/-- OP 01010, F1 001000, F2 001000, F3 000001, M 1. -/
theorem test_decode_corrupt_exact : decodeCommand ⟨0b01010001000001000000001100000000, 0x99, 0⟩ =
    .instr (.corrupt 8 8 1 .exact 0x99) := by decide
/-- OP 01011, V 0. -/
theorem test_decode_frameEnc : decodeCommand ⟨0b01011000000000000000000000000000, 0x3, 0⟩ = .instr (.frameEnc .v0 0x3) := by
  decide
/-- OP 01100, V 1. -/
theorem test_decode_frameDec : decodeCommand ⟨0b01100000000000000000000010000000, 0x99, 0⟩ =
    .instr (.frameDec .v1 0x99) := by decide
/-- OP 01101. -/
theorem test_decode_val12Enc : decodeCommand ⟨0b01101000000000000000000000000000, 0xF3, 0⟩ = .instr (.val12Enc 0xF3) := by
  decide
/-- OP 01110. -/
theorem test_decode_val12Dec : decodeCommand ⟨0b01110000000000000000000000000000, 0x82FC99, 0⟩ =
    .instr (.val12Dec 0x82FC99) := by decide
/-- D-encoding: no opcode, the first and the last unassigned opcode. -/
theorem test_decode_unassigned : decodeCommand ⟨0x00000000, 0, 0⟩ = .illegalCommand ∧
    decodeCommand ⟨0x78000000, 0, 0⟩ = .illegalCommand ∧ decodeCommand ⟨0xF8000000, 0, 0⟩ = .illegalCommand ∧
    decodeCommand ⟨0x7FFFFFFF, 0, 0⟩ = .illegalCommand := ⟨by decide, by decide, by decide, by decide⟩
/-- D-encoding: a bit of `Z`, of `F1`, of `F3`, of `M` and of `V` set where the opcode does not use it. -/
theorem test_decode_unused_bits : decodeCommand ⟨0x10000001, 0, 0⟩ = .illegalCommand ∧
    decodeCommand ⟨0x10200000, 0, 0⟩ = .illegalCommand ∧ decodeCommand ⟨0x20A18200, 0, 0⟩ = .illegalCommand ∧
    decodeCommand ⟨0x58000100, 0, 0⟩ = .illegalCommand ∧ decodeCommand ⟨0x51040080, 0, 0⟩ = .illegalCommand :=
  ⟨by decide, by decide, by decide, by decide, by decide⟩
/-- The host's numbering: `CW` in bits 31:0, `DA` in bits 63:32, `DB` in bits 95:64 (spec/opcode_table.json). -/
theorem test_table_word : decodeTableWord 96 0x3333333300000007_18000000 = some (.cbWrite 0x7 0x33333333) := by decide

/-! ## Single steps (95_test_vectors.md) -/

theorem test_illegal : answer smallBook 0x78000000 0 0 = some (7, 0, 0) := by decide
/-- D-bitmetric. -/
theorem test_hdist_bits_above_the_width : answer Block.reset 0x08A00000 0xFFFFFFE0 0x1F = some (0, 5, 0) := by decide
theorem test_hdist_width_63 : answer Block.reset 0x0FE00000 0xCCCCCCCC 0x33333333 = some (0, 32, 0) := by decide
theorem test_popcnt_ends : answer Block.reset 0x10000000 0x80000001 0 = some (0, 2, 0) := by decide
theorem test_popcnt_all : answer Block.reset 0x10000000 0xFFFFFFFF 0xDEADBEEF = some (0, 32, 0) := by decide
/-- D-codebook 1: symbol 3 written over. -/
theorem test_cbWrite_over : blockOf (step (withCommand openBlock ⟨0x18000000, 0x3, 0x1D⟩)) =
    some { openBlock with lut := [(0, 0x00), (1, 0x07), (2, 0x19), (3, 0x1D)] } := by decide
theorem test_cbWrite_symbol_16 : answer openBlock 0x18000000 0x10 0x1F = some (6, 0, 0) := by decide
/-- D-codebook 1: the pair (0, 1) is too near at distance 4; at width 4 symbol 2 does not fit. -/
theorem test_cbVerify_pair : answer smallBook 0x20A20000 0 0 = some (0, 0, 0x0001) := by decide
theorem test_cbVerify_too_wide : answer openBlock 0x20818000 0 0 = some (6, 0, 2) := by decide
theorem test_cbSeal_ok : blockOf (step (withCommand openBlock ⟨0x28A18000, 0, 0⟩)) = some smallBook := by decide
theorem test_cbSeal_pair : answer openBlock 0x28A20000 0 0 = some (1, 0, 0x0001) := by decide
/-- D-codebook 4, first row; D-codebook 3, row 9. -/
theorem test_cbGen_ok : blockOf (step (withCommand Block.reset ⟨0x30A18800, 0, 0⟩)) = some smallBook := by decide
theorem test_cbGen_exhausted : answer Block.reset 0x30818600 0 0 = some (2, 0, 0) := by decide
/-- D-codebook 1 and D-codec 3. -/
theorem test_cbStat_small : answer smallBook 0x38000000 0 0 = some (0, 0x4030501, 0xF) := by decide
theorem test_cbStat_tie : answer tieBook 0x38000000 0 0 = some (0, 0x3040801, 0x224) := by decide
/-- D-codec 1. -/
theorem test_encode_ok : answer smallBook 0x40000000 0x3 0 = some (0, 0x1E, 0) := by decide
theorem test_encode_unknown : answer smallBook 0x40000000 0x13 0 = some (3, 0, 0) := by decide
/-- D-codec 3: the lowest symbol among ties. -/
theorem test_decode_tie : answer tieBook 0x48000000 0x30 0 = some (0, 5, 2) := by decide
theorem test_decode_exact : answer tieBook 0x48000000 0x0 0 = some (0, 9, 0) := by decide
/-- D-channel, row 11: width 6 in two blocks of 3, positions {1} and {0, 1}. -/
theorem test_corrupt_blocks : answerOf (exec (.corrupt 6 3 2 .random 0x2A) (withDraws Block.reset [1, 2] [0b010, 0b011])) =
    some (0, 0x39, 0) := by decide
/-- 43_channel.md R135 on the small codebook: one flip in five bits stays within the bound, two do not. -/
theorem test_corrupt_flag :
    answerOf (exec (.corrupt 5 5 2 .exact 0x1E) (withDraws smallBook [] [0b10001])) = some (0, 0x0F, 1) := by decide
/-- S2: nibble 3 in variant 0 is 0x99; D-frame 1: nibble 1 in variant 1 is 0x88. -/
theorem test_frameEnc_v0 : answer Block.reset 0x58000000 0x3 0 = some (0, 0x99, 0) := by decide
theorem test_frameEnc_v1 : answer Block.reset 0x58000080 0x1 0 = some (0, 0x88, 0) := by decide
theorem test_frameDec_marker : answer Block.reset 0x60000000 0x19 0 = some (4, 0, 0) := by decide
theorem test_frameDec_parity : answer Block.reset 0x60000000 0x98 0 = some (5, 0, 0) := by decide
/-- S2. -/
theorem test_val12Enc : answer Block.reset 0x68000000 0xF3 0 = some (0, 0x82FC99, 0) := by decide
theorem test_val12Enc_range : answer Block.reset 0x68000000 0x1000 0 = some (6, 0, 0) := by decide
theorem test_val12Dec : answer Block.reset 0x70000000 0x82FC99 0 = some (0, 0xF3, 0) := by decide
theorem test_val12Dec_frame1 : answer Block.reset 0x70000000 0x82FD99 0 = some (5, 0, 1) := by decide
/-- 70_reset_and_hazards.md R180: reset leaves the sealed phase and clears the table. -/
theorem test_reset : blockOf (step { ofBlock smallBook with program := [.reset] }) = some Block.reset := by decide
/-- The command placed by withFetchWord runs in the very next step. -/
theorem test_withFetchWord : answerOf (step (State.reset.withFetchWord 96 0x33333333CCCCCCCC09000000)) = some (0, 8, 0) := by
  decide

/-! ## Witnesses: for every obligation with hypotheses, values that meet all of them, clause by clause -/

theorem smallBook_inv : (ofBlock smallBook).Inv := by
  refine ⟨⟨by decide, by decide⟩, ⟨by decide, ?_⟩, fun h => (by cases h),
    fun _ => ⟨by decide, ⟨0, 0, by decide⟩, ?_, ?_⟩⟩
  · intro a v h
    have := mem_of_memRead h
    simp only [ofBlock, smallBook, openBlock, List.mem_cons, Prod.mk.injEq, List.not_mem_nil, or_false] at this
    rcases this with ⟨rfl, rfl⟩ | ⟨rfl, rfl⟩ | ⟨rfl, rfl⟩ | ⟨rfl, rfl⟩ <;> decide
  · intro a v h
    have := mem_of_memRead h
    simp only [ofBlock, smallBook, openBlock, List.mem_cons, Prod.mk.injEq, List.not_mem_nil, or_false] at this
    rcases this with ⟨rfl, rfl⟩ | ⟨rfl, rfl⟩ | ⟨rfl, rfl⟩ | ⟨rfl, rfl⟩ <;> decide
  · intro a b v w h h' hne
    have h := mem_of_memRead h
    have h' := mem_of_memRead h'
    simp only [ofBlock, smallBook, openBlock, List.mem_cons, Prod.mk.injEq, List.not_mem_nil, or_false] at h h'
    rcases h with ⟨rfl, rfl⟩ | ⟨rfl, rfl⟩ | ⟨rfl, rfl⟩ | ⟨rfl, rfl⟩ <;>
      rcases h' with ⟨rfl, rfl⟩ | ⟨rfl, rfl⟩ | ⟨rfl, rfl⟩ | ⟨rfl, rfl⟩ <;>
      first | exact absurd rfl hne | decide

/-- The open table meets the invariant too. -/
theorem openBlock_inv : (ofBlock openBlock).Inv := by
  refine ⟨⟨by decide, by decide⟩, ⟨by decide, ?_⟩, fun _ => by decide, fun h => by cases h⟩
  intro a v h
  have := mem_of_memRead h
  simp only [ofBlock, openBlock, List.mem_cons, Prod.mk.injEq, List.not_mem_nil, or_false] at this
  rcases this with ⟨rfl, rfl⟩ | ⟨rfl, rfl⟩ | ⟨rfl, rfl⟩ | ⟨rfl, rfl⟩ <;> decide

theorem ofBlock_kOk (b : Block) : (ofBlock b).KOk := ⟨(by decide : 1 ≤ 4), (by decide : 4 ≤ 5)⟩

theorem witness_DecodeEncodeRoundTrip : (Instr.corrupt 63 63 63 .exact 0xFFFFFFFF).wellFormed = true ∧
    (Instr.hdist 0 0 0).wellFormed = true := ⟨by decide, by decide⟩

theorem witness_DecodedInstructionKeepsItsControlWord :
    decodeCommand ⟨0x57FFFF00, 0x1, 0x2⟩ = .instr (.corrupt 63 63 63 .exact 0x1) := by decide

theorem witness_ExactlyOneRowOrIllegal :
    (∃ row ∈ opcodeRows, row.selects 0x10000000 = true) ∧ (∀ row ∈ opcodeRows, row.selects 0x78000000 = false) := by
  constructor
  · exact ⟨opcodeRows[1], List.getElem_mem (by decide), by decide⟩
  · decide

/-- Each disjunct of the first clause, alone, at a boundary; then the second clause. -/
theorem witness_IllegalCommandsAreRefused :
    (decodeCommand ⟨0x00000000, 0, 0⟩ = .illegalCommand ∧ decodeCommand ⟨0x78000000, 0, 0⟩ = .illegalCommand ∧
      decodeCommand ⟨0x70000001, 0, 0⟩ = .illegalCommand ∧ decodeCommand ⟨0x70200000, 0, 0⟩ = .illegalCommand ∧
      decodeCommand ⟨0x08008000, 0, 0⟩ = .illegalCommand ∧ decodeCommand ⟨0x28000200, 0, 0⟩ = .illegalCommand ∧
      decodeCommand ⟨0x58000100, 0, 0⟩ = .illegalCommand ∧ decodeCommand ⟨0x50000080, 0, 0⟩ = .illegalCommand ∧
      decodeCommand ⟨0x70000000, 0, 0⟩ ≠ .illegalCommand) ∧
    (withCommand Block.reset ⟨0, 0, 0⟩).program[(withCommand Block.reset ⟨0, 0, 0⟩).pc]? = some (.command ⟨0, 0, 0⟩) :=
  ⟨⟨by decide, by decide, by decide, by decide, by decide, by decide, by decide, by decide, by decide⟩, by decide⟩

theorem witness_UnusedDataWordsAreIgnored :
    (decodeCommand ⟨0x10000000, 0xF3, 0x7⟩ = .instr (.popcnt 0xF3) ∧ (∀ w a b, Instr.popcnt 0xF3 ≠ .hdist w a b) ∧
      ∀ a b, Instr.popcnt 0xF3 ≠ .cbWrite a b) ∧
    (decodeCommand ⟨0x38000000, 0x1, 0x7⟩ = .instr .cbStat) :=
  ⟨⟨by decide, by simp, by simp⟩, by decide⟩

theorem witness_StepRunsTheDecodedInstruction :
    let c : Command := ⟨0x40000000, 0x3, 0⟩
    (withCommand smallBook c).program[(withCommand smallBook c).pc]? = some (.command c) ∧
      decodeCommand c = .instr (.encode 0x3) := ⟨by decide, by decide⟩

theorem witness_ResetLeavesNoCodebook :
    let s : State := { ofBlock smallBook with program := [.reset, .resetDuring ⟨0x28A18000, 0, 0⟩] }
    s.program[s.pc]? = some .reset ∧
      { s with pc := 1 }.program[{ s with pc := 1 }.pc]? = some (.resetDuring ⟨0x28A18000, 0, 0⟩) :=
  ⟨by decide, by decide⟩

theorem witness_BlockHoldsItsStateAfterTheLastMove :
    (ofBlock smallBook).program.length ≤ (ofBlock smallBook).pc := by decide

/-- A CB_SEAL that takes the open table to the sealed one. -/
theorem witness_EveryStepKeepsTheInvariant :
    (withCommand openBlock ⟨0x28A18000, 0, 0⟩).Inv ∧ ∃ t, step (withCommand openBlock ⟨0x28A18000, 0, 0⟩) = .next t := by
  have h := openBlock_inv
  exact ⟨⟨h.k, h.table, h.opened, h.sealed⟩, _, rfl⟩

theorem witness_EveryStepAnswers : (withCommand smallBook ⟨0x48000000, 0x1F, 0⟩).Inv := by
  have h := smallBook_inv
  exact ⟨h.k, h.table, h.opened, h.sealed⟩

/-- The state in which DECODE stops. -/
theorem witness_TheOnlyStopIsAnEmptySealedCodebook :
    exec (.decode 0x1F) (ofBlock emptyBook) = .fault .nearestOfEmptyCodebook ∧ (0x1F#32).toNat < 2 ^ 5 := ⟨by rfl, by decide⟩

theorem witness_EveryCommandGetsOneResponse :
    ∃ t, step (withCommand smallBook ⟨0x40000000, 0x4, 0⟩) = .next t := ⟨_, rfl⟩

/-- ENCODE of an absent symbol, for both statements about error statuses. -/
theorem witness_FailingCommandChangesNothing :
    exec (.encode 0x4) (ofBlock smallBook) = .next (respond (.error .unknownSymbol) 0 0 (ofBlock smallBook)) ∧
      (respond (.error .unknownSymbol) 0 0 (ofBlock smallBook)).responses =
        (ofBlock smallBook).responses ++ [{ st := .error .unknownSymbol, r0 := 0, r1 := 0 }] := ⟨by rfl, by rfl⟩

theorem witness_StatusesAreThoseOfTheTable :
    exec (.val12Dec 0x82FD99) State.reset = .next (respond (.error .parityMismatch) 0 1 State.reset) ∧
      (respond (.error .parityMismatch) 0 1 State.reset).responses =
        State.reset.responses ++ [{ st := .error .parityMismatch, r0 := 0, r1 := 1 }] := ⟨by rfl, by rfl⟩

theorem witness_SealedCodebookNeverChanges :
    (ofBlock smallBook).block.cbSealed = true ∧
      exec (.cbWrite 0x3 0x1D) (ofBlock smallBook) = .next (respond (.error .codebookLocked) 0 0 (ofBlock smallBook)) :=
  ⟨by decide, by rfl⟩

theorem witness_OnlyResetUnseals :
    let s : State := { ofBlock smallBook with program := [.reset] }
    s.block.cbSealed = true ∧ step s = .next (resetBlock s) ∧ (resetBlock s).block ≠ s.block :=
  ⟨by decide, by rfl, by decide⟩

/-- Each clause: the table, the control fields, the source. -/
theorem witness_WhoWritesWhichState :
    (exec (.cbWrite 0x3 0x1D) (ofBlock openBlock) = .next (respond .ok 0 0 (writeEntry 3 0x1D (ofBlock openBlock))) ∧
      (writeEntry 3 0x1D (ofBlock openBlock)).block.lut ≠ (ofBlock openBlock).block.lut) ∧
    (exec (.cbSeal 5 3) (ofBlock openBlock) = .next (respond .ok 4 0 (sealCodebook 5 3 (ofBlock openBlock))) ∧
      (sealCodebook 5 3 (ofBlock openBlock)).block.cbWidth ≠ (ofBlock openBlock).block.cbWidth) ∧
    ∃ t, exec (.corrupt 1 1 1 .exact 0x1) (withDraws Block.reset [] [1]) = .next t ∧
      t.source ≠ (withDraws Block.reset [] [1]).source :=
  ⟨⟨by rfl, by decide⟩, ⟨by rfl, by decide⟩, _, rfl, by decide⟩

theorem witness_AnswersDependOnBlockAndSourceOnly :
    let s := ofBlock smallBook
    let s' : State := { s with pc := 7, responses := [{ st := .ok, r0 := 1, r1 := 2 }] }
    s'.k = s.k ∧ s'.block = s.block ∧ s'.source = s.source ∧ ∃ t, exec (.decode 0x1F) s = .next t :=
  ⟨rfl, rfl, rfl, _, rfl⟩

theorem witness_OnlyCorruptReadsTheSource :
    (∀ w b m mode x, Instr.decode 0x1F ≠ .corrupt w b m mode x) ∧
      ∃ t, exec (.decode 0x1F) (ofBlock smallBook) = .next t := ⟨by simp, _, rfl⟩

theorem witness_HdistCountsTheDifferingBits : (0 : Nat) < 64 ∧ (63 : Nat) < 64 := by decide

theorem witness_HammingDistanceCorners : 32 ≤ (32 : Nat) ∧ 32 ≤ (63 : Nat) := by decide

theorem witness_HammingDistanceLaws : (32 : Nat) ≤ 32 ∧ (0xFFFFFFFF#32).toNat < 2 ^ 32 ∧ (0x0#32).toNat < 2 ^ 0 := by decide

theorem witness_CbWriteStoresOneRow :
    ((ofBlock openBlock).block.cbSealed = false ∧ (15#32).toNat < 2 ^ (ofBlock openBlock).k) ∧
      (ofBlock smallBook).block.cbSealed = true ∧ 2 ^ (ofBlock openBlock).k ≤ (16#32).toNat := by decide

/-- Each outcome of the verification occurs. -/
theorem witness_VerifyFindsTheFirstDefect :
    verify (ofBlock openBlock) 4 3 = .tooWide 2 ∧ verify (ofBlock openBlock) 5 4 = .violation 0 1 ∧
      verify (ofBlock openBlock) 5 3 = .pass := by decide

theorem witness_CbVerifyReportsTheVerification :
    (ofBlock openBlock).KOk ∧ (0 : Nat) < 1 ∧ 32 < (33 : Nat) ∧ verify (ofBlock openBlock) 1 0 = .tooWide 1 ∧
      verify (ofBlock openBlock) 32 4 = .violation 0 1 ∧ verify (ofBlock openBlock) 32 3 = .pass :=
  ⟨ofBlock_kOk _, by decide⟩

theorem witness_CbSealVerifiesAndFreezes :
    (ofBlock openBlock).KOk ∧ (63 : Nat) < 64 ∧ (ofBlock smallBook).block.cbSealed = true ∧
      (ofBlock openBlock).block.cbSealed = false ∧ ¬ HasEntry State.reset ∧ HasEntry (ofBlock openBlock) ∧
      verify (ofBlock openBlock) 1 0 = .tooWide 1 ∧ verify (ofBlock openBlock) 32 4 = .violation 0 1 ∧
      verify (ofBlock openBlock) 32 3 = .pass :=
  ⟨ofBlock_kOk _, by decide, by decide, by decide, fun ⟨_, _, _, h⟩ => (by cases h), ⟨0, 0, by decide, by decide⟩,
    by decide, by decide, by decide⟩

/-- Both answers, the first at the largest count that fits (D-codebook 4: `Greedy(2, 3, 2)`; D-codebook 3). -/
theorem witness_GreedyAcceptsExactlyTheFarCandidates :
    greedy 4 3 2 = some [0, 3, 5, 6] ∧ greedy 5 3 2 = none := by decide

theorem witness_CbGenBuildsAndFreezes :
    (ofBlock smallBook).block.cbSealed = true ∧ State.reset.block.cbSealed = false ∧ (0 : Nat) < 1 ∧ 32 < (33 : Nat) ∧
      2 ^ State.reset.k < (17 : Nat) ∧ (16 : Nat) ≤ 2 ^ State.reset.k ∧ greedy 16 3 0 = none ∧
      greedy 2 1 1 = some [0, 1] := by decide

theorem witness_GenerationIsDeterministic :
    exec (.cbGen 1 1 2) State.reset = .next (respond .ok 2 0 (sealCodebook 1 1 (loadTable [0, 1] State.reset))) ∧
      exec (.cbGen 1 1 2) (ofBlock openBlock) =
        .next (respond .ok 2 0 (sealCodebook 1 1 (loadTable [0, 1] (ofBlock openBlock)))) ∧
      Answered State.reset (respond .ok 2 0 (sealCodebook 1 1 (loadTable [0, 1] State.reset))) .ok 2 0 ∧
      Answered (ofBlock openBlock) (respond .ok 2 0 (sealCodebook 1 1 (loadTable [0, 1] (ofBlock openBlock)))) .ok 2 0 :=
  ⟨by rfl, by rfl, ⟨rfl, rfl, rfl, rfl⟩, ⟨rfl, rfl, rfl, rfl⟩⟩

theorem witness_GeneratedCodebookPassesItsVerification :
    ∃ t, exec (.cbGen 5 3 4) State.reset = .next t ∧ Answered State.reset t .ok 4 0 :=
  ⟨_, rfl, rfl, rfl, rfl, rfl⟩

theorem witness_GreedyPrefixProperty :
    (1 : Nat) ≤ 2 ∧ (2 : Nat) ≤ 4 ∧ greedy 4 3 2 = some [0, 3, 5, 6] := by decide

theorem witness_CbStatReportsTheControlFields : (ofBlock smallBook).KOk := ofBlock_kOk _

theorem witness_EncodeLooksTheSymbolUp :
    (ofBlock openBlock).block.cbSealed = false ∧ (ofBlock smallBook).block.cbSealed = true ∧
      2 ^ (ofBlock smallBook).k ≤ (16#32).toNat ∧ isPresent (ofBlock smallBook) (4#32).toNat = false ∧
      Holds (ofBlock smallBook) (3#32).toNat 0x1E :=
  ⟨by decide, by decide, by decide, by decide, by decide, by decide⟩

theorem witness_DecodeAnswersTheNearestSymbol :
    (ofBlock smallBook).KOk ∧ (ofBlock openBlock).block.cbSealed = false ∧ (ofBlock smallBook).block.cbSealed = true ∧
      2 ^ (ofBlock smallBook).block.cbWidth.toNat ≤ (0x20#32).toNat ∧
      (0x1F#32).toNat < 2 ^ (ofBlock smallBook).block.cbWidth.toNat ∧ HasEntry (ofBlock smallBook) :=
  ⟨ofBlock_kOk _, by decide, by decide, by decide, by decide, 0, 0, by decide, by decide⟩

theorem witness_RoundTripWithoutNoise :
    (ofBlock smallBook).Inv ∧ (ofBlock smallBook).block.cbSealed = true ∧
      1 ≤ (ofBlock smallBook).block.cbDmin.toNat ∧ memRead (ofBlock smallBook).block.lut 3 = some 0x1E :=
  ⟨smallBook_inv, by decide, by decide, by decide⟩

/-- One error of a distance of 3 (D-codec 2, last row but two). -/
theorem witness_DecoderCorrectsBelowHalfTheDistance :
    (ofBlock smallBook).Inv ∧ (ofBlock smallBook).block.cbSealed = true ∧
      memRead (ofBlock smallBook).block.lut 2 = some 0x19 ∧
      (0x18#32).toNat < 2 ^ (ofBlock smallBook).block.cbWidth.toNat ∧
      2 * hammingDistance 0x18 0x19 (ofBlock smallBook).block.cbWidth.toNat < (ofBlock smallBook).block.cbDmin.toNat :=
  ⟨smallBook_inv, by decide, by decide, by decide, by decide⟩

/-- Each of the four checks refuses alone. -/
theorem witness_CorruptFollowsItsDraws_refused :
    ¬ CorruptLegal 0 1 0 0x0 ∧ ¬ CorruptLegal 33 1 0 0x0 ∧ ¬ CorruptLegal 8 3 1 0x0 ∧ ¬ CorruptLegal 8 8 9 0x0 ∧
      ¬ CorruptLegal 8 8 1 0x100 := by
  refine ⟨fun h => ?_, fun h => ?_, fun h => ?_, fun h => ?_, fun h => ?_⟩
  · exact absurd h.1.1 (by decide)
  · exact absurd h.1.2 (by decide)
  · exact absurd h.2.1.2.2 (by decide)
  · exact absurd h.2.2.1 (by decide)
  · exact absurd h.2.2.2 (by decide)

/-- D-channel, row 11 with an empty block between its two: the sets 1, none, 0 and 1 in mode 0, and the set 7 in mode 1 (row 7). -/
theorem witness_CorruptFollowsItsDraws :
    (CorruptLegal 9 3 2 0x2A ∧ [(1, 0b010#32), (0, 0), (2, 0b011)].length = 9 / 3 ∧
      (∀ d ∈ [(1, 0b010#32), (0, 0), (2, 0b011)], FlipsOk .random 2 d.1 ∧ popcount d.2 = d.1 ∧ d.2.toNat < 2 ^ 3) ∧
      (withDraws Block.reset [1, 0, 2] [0b010, 0b011]).source.counts =
        drawnCounts .random [(1, 0b010), (0, 0), (2, 0b011)] ++ [] ∧
      (withDraws Block.reset [1, 0, 2] [0b010, 0b011]).source.positions =
        drawnSets [(1, 0b010), (0, 0), (2, 0b011)] ++ []) ∧
    (CorruptLegal 8 8 1 0x99 ∧ (∀ d ∈ [(1, 0x80#32)], FlipsOk .exact 1 d.1 ∧ popcount d.2 = d.1 ∧ d.2.toNat < 2 ^ 8) ∧
      (withDraws Block.reset [5] [0x80]).source.counts = drawnCounts .exact [(1, 0x80)] ++ [5] ∧
      (withDraws Block.reset [5] [0x80]).source.positions = drawnSets [(1, 0x80)] ++ []) := by
  refine ⟨⟨⟨by decide, by decide, by decide, by decide⟩, rfl, ?_, rfl, rfl⟩,
    ⟨by decide, by decide, by decide, by decide⟩, ?_, rfl, rfl⟩
  · intro d hd
    simp only [List.mem_cons, List.not_mem_nil, or_false] at hd
    rcases hd with rfl | rfl | rfl
    · exact ⟨Nat.le_of_ble_eq_true rfl, by decide, by decide⟩
    · exact ⟨Nat.le_of_ble_eq_true rfl, by decide, by decide⟩
    · exact ⟨Nat.le_of_ble_eq_true rfl, by decide, by decide⟩
  · intro d hd
    rw [List.mem_singleton.1 hd]
    exact ⟨rfl, by decide, by decide⟩

theorem corruptLegal_narrow : CorruptLegal 1 1 1 0x1 := ⟨by decide, by decide, by decide, by decide⟩

theorem corruptLegal_wide : CorruptLegal 32 32 32 0xFFFFFFFF := ⟨by decide, by decide, by decide, by decide⟩

/-- On the small codebook: `2 * 1 < 3` keeps the flag 0, `2 * 2` does not. -/
theorem witness_BudgetFlagMarksSettingsBeyondTheBound :
    CorruptLegal 5 5 1 0x1E ∧ budgetFlag smallBook 5 (5 / 5) 1 = 0 ∧
      CorruptLegal 5 5 2 0x1E ∧ budgetFlag smallBook 5 (5 / 5) 2 = 1 :=
  ⟨⟨by decide, by decide, by decide, by decide⟩, by decide, ⟨by decide, by decide, by decide, by decide⟩, by decide⟩

theorem two_blocks {p : Nat → Prop} (h0 : p 0) (h1 : p 1) : ∀ j, j < 6 / 3 → p j
  | 0, _ => h0
  | 1, _ => h1
  | j + 2, h => absurd h (by omega)

/-- D-channel, row 11: 0x2A to 0x39 in blocks of three bits; in exact mode one flip in each, to 0x23. -/
theorem witness_CorruptAnswersAreExactlyTheBoundedOnes :
    CorruptLegal 1 1 1 0x1 ∧ CorruptLegal 32 32 32 0xFFFFFFFF ∧
    (CorruptLegal 6 3 2 0x2A ∧ (0x39#32).toNat < 2 ^ 6 ∧
      ∀ j, j < 6 / 3 → FlipsOk .random 2 (popcount (subBlock 6 3 j (0x39 ^^^ 0x2A)))) ∧
    (CorruptLegal 6 3 1 0x2A ∧ (0x23#32).toNat < 2 ^ 6 ∧
      ∀ j, j < 6 / 3 → FlipsOk .exact 1 (popcount (subBlock 6 3 j (0x23 ^^^ 0x2A)))) :=
  ⟨corruptLegal_narrow, corruptLegal_wide,
    ⟨⟨by decide, by decide, by decide, by decide⟩, by decide,
      two_blocks (Nat.le_of_ble_eq_true rfl) (Nat.le_of_ble_eq_true rfl)⟩,
    ⟨by decide, by decide, by decide, by decide⟩, by decide, two_blocks rfl rfl⟩

theorem witness_ExactModeRequestsPositionsOnly :
    CorruptLegal 1 1 1 0x1 ∧ CorruptLegal 1 1 0 0x1 ∧
      (∃ t, exec (.corrupt 1 1 1 .exact 0x1) (withDraws Block.reset [] [1]) = .next t) ∧
      ∃ t, exec (.corrupt 1 1 0 .exact 0x1) (withDraws Block.reset [] []) = .next t :=
  ⟨corruptLegal_narrow, ⟨by decide, by decide, by decide, by decide⟩, ⟨_, rfl⟩, _, rfl⟩

/-- D-channel, row 11 with an empty block between its two: the counts 1, 0 and 2 and the requests they send. -/
theorem witness_RandomModeRequestsCountThenPositions :
    CorruptLegal 1 1 1 0x1 ∧ CorruptLegal 32 32 32 0xFFFFFFFF ∧ CorruptLegal 9 3 2 0x2A ∧
      ∃ t, exec (.corrupt 9 3 2 .random 0x2A) (withDraws Block.reset [1, 0, 2] [0b010, 0b011]) = .next t ∧
        t.source.requests = randomRequests 3 2 [1, 0, 2] ∧
        t.source.requests = [.count 2, .positions 3 1, .count 2, .count 2, .positions 3 2] :=
  ⟨corruptLegal_narrow, corruptLegal_wide, ⟨by decide, by decide, by decide, by decide⟩, _, rfl, rfl, rfl⟩

/-- One flip on the codeword of symbol 3, flag 0. -/
theorem witness_ChannelWithinTheBudgetIsCorrected :
    let s := withDraws smallBook [] [0b00001]
    s.Inv ∧ s.block.cbSealed = true ∧ 5 = s.block.cbWidth.toNat ∧ memRead s.block.lut 3 = some 0x1E ∧
      CorruptLegal 5 5 1 0x1E ∧ ∃ t, exec (.corrupt 5 5 1 .exact 0x1E) s = .next t ∧ Answered s t .ok 0x1F 0 := by
  have h := smallBook_inv
  exact ⟨⟨h.k, h.table, h.opened, h.sealed⟩, by decide, by decide, by decide,
    ⟨by decide, by decide, by decide, by decide⟩, _, rfl, rfl, rfl, rfl, rfl⟩

theorem witness_ByteBlocksAreTheCodewordBytes : (4 : Nat) ≤ 4 ∧ (3 : Nat) < 4 ∧ (0 : Nat) < 1 ∧ (7 : Nat) < 8 := by decide

theorem witness_FrameEncBuildsTheFrame : 16 ≤ (16#32).toNat ∧ (15#32).toNat < 16 := by decide

/-- D-frame 2: 0x19 and (variant 1) 0x9D have a wrong marker, 0x98 and (variant 1) 0x8B a wrong parity, 0x99 is valid. -/
theorem witness_FrameDecChecksMarkersThenParity :
    256 ≤ (0x100#32).toNat ∧ (0xFF#32).toNat < 256 ∧ ¬ MarkersRight .v0 0x19 ∧ ¬ MarkersRight .v1 0x9D ∧
      (MarkersRight .v0 0x98 ∧ ¬ ParityRight .v0 0x98) ∧ (MarkersRight .v1 0x8B ∧ ¬ ParityRight .v1 0x8B) ∧
      (MarkersRight .v0 0x99 ∧ ParityRight .v0 0x99) ∧ MarkersRight .v1 0x99 ∧ ParityRight .v1 0x99 := by
  simp only [MarkersRight, ParityRight]
  decide

theorem witness_SingleBitFlipsAreDetected : (0 : Nat) < 8 ∧ (7 : Nat) < 8 := by decide

/-- Boundary pairs, and one of each list. -/
theorem witness_UndetectedDoubleFlips : (0 : Nat) < 1 ∧ (6 : Nat) < 7 ∧ (7 : Nat) < 8 ∧ (6, 3) ∈ undetectedPairs .v0 ∧
    (6, 4) ∈ undetectedPairs .v1 ∧ (6, 4) ∉ undetectedPairs .v0 := by decide

theorem witness_Val12EncPacksThreeFrames : 4096 ≤ (4096#32).toNat ∧ (4095#32).toNat < 4096 := by decide

/-- S2 with its frames broken one after the other. -/
theorem witness_Val12DecFailsOnTheFirstBadFrame :
    2 ^ 24 ≤ (0x1000000#32).toNat ∧ (0xFFFFFF#32).toNat < 2 ^ 24 ∧
      checkFrame (BitVec.ofNat 8 ((0x02FC99#32).toNat / 256 ^ 2)) .v0 = .structural ∧
      checkFrame (BitVec.ofNat 8 ((0x82FC99#32).toNat / 256 ^ 2)) .v0 = .payload 0 ∧
      checkFrame (BitVec.ofNat 8 ((0x82FD99#32).toNat / 256 ^ 1)) .v0 = .parity ∧
      checkFrame (BitVec.ofNat 8 ((0x82FC99#32).toNat / 256)) .v0 = .payload 0xF ∧
      checkFrame (BitVec.ofNat 8 ((0x82FC19#32).toNat / 256 ^ 0)) .v0 = .structural ∧
      checkFrame (BitVec.ofNat 8 (0x82FC99#32).toNat) .v0 = .payload 0x3 := by decide

theorem witness_Val12RoundTrip : (0xFFF#32).toNat < 4096 ∧ (0x0#32).toNat < 4096 := by decide

theorem witness_ReadingCommandsTouchNothing :
    (∀ a v, Instr.cbVerify 5 4 ≠ .cbWrite a v) ∧ (∀ w d, Instr.cbVerify 5 4 ≠ .cbSeal w d) ∧
      (∀ w d n, Instr.cbVerify 5 4 ≠ .cbGen w d n) ∧ (∀ w b m mode x, Instr.cbVerify 5 4 ≠ .corrupt w b m mode x) ∧
      ∃ t, exec (.cbVerify 5 4) (ofBlock smallBook) = .next t := ⟨by simp, by simp, by simp, by simp, _, rfl⟩

theorem witness_WritingCommandsLeaveTheRestAlone :
    (∃ t, exec (.cbWrite 0x3 0x1D) (ofBlock openBlock) = .next t) ∧
      (∃ t, exec (.cbSeal 5 3) (ofBlock openBlock) = .next t) ∧
      (∃ t, exec (.cbGen 1 1 2) State.reset = .next t) ∧
      ∃ t, exec (.corrupt 1 1 1 .exact 0x1) (withDraws Block.reset [] [1]) = .next t :=
  ⟨⟨_, rfl⟩, ⟨_, rfl⟩, ⟨_, rfl⟩, _, rfl⟩

end Sys2Proof.Tests
end

section
/-! SUPPORT. Independence from the random source (00_scope.md R8, 10_state.md R28): the comparison of two answers, `SameAnswer`,
read off for the next states they lead to. -/

namespace Sys2Proof.Proofs

open Sys2Proof Sys2Proof.Machine

/-- The states `t` and `t'` that one instruction leads to from `s` and from `s'` differ only as `s` and `s'` do. -/
structure SameEffect (i : Instr) (s s' t t' : State) : Prop where
  block : t'.block = t.block
  source : s'.source = s.source → t'.source = t.source
  sourceKept : (∀ w b m mode x, i ≠ .corrupt w b m mode x) → t.source = s.source ∧ t'.source = s'.source
  response : ∃ r, t.responses = s.responses ++ [r] ∧ t'.responses = s'.responses ++ [r]
  pc : t.pc = s.pc + 1 ∧ t'.pc = s'.pc + 1

/-- If the first of two same answers is a next state, so is the second, with the same effect. -/
theorem sameAnswer_next {i : Instr} {s s' t : State} {x : Result} (h : SameAnswer i s s' (.next t) x) :
    ∃ t', x = .next t' ∧ SameEffect i s s' t t' := by
  cases h with
  | next st r0 r1 u u' hr hr' hp hp' hb hs hn =>
    exact ⟨respond st r0 r1 u', rfl, hb, hs, hn, ⟨⟨st, r0, r1⟩, by simp [hr], by simp [hr']⟩, by simp [hp], by simp [hp']⟩

/-- Settles O22: replacing the source changes neither K nor the block, all that a command but CORRUPT depends on. -/
theorem onlyCorruptReadsTheSource : Obligations.OnlyCorruptReadsTheSource := by
  intro i s t src hi ht
  have same : SameAnswer i s (setSource src s) (exec i s) (exec i (setSource src s)) :=
    exec_congr i (setSource_k src s) (setSource_block src s) (.inl hi)
  rw [ht] at same
  obtain ⟨t', ht', eff⟩ := sameAnswer_next same
  obtain ⟨r, hr, hr'⟩ := eff.response
  obtain ⟨hp, hp'⟩ := eff.pc
  exact ⟨t', ht', eff.block, (eff.sourceKept hi).2, by simp [hr, hr'], by simp [hp, hp']⟩

end Sys2Proof.Proofs
end

section
/-! SUPPORT. What the step is for each of the host's next moves (70_reset_and_hazards.md R188, 30_encoding.md R65, R66), the
converse of `step_cases`; and the state that a reset leads to (10_state.md R29). -/

namespace Sys2Proof.Proofs

open Sys2Proof Sys2Proof.Machine

theorem step_of_idle {s : State} (h : nextMove s = none) : step s = .next s := by
  simp only [step, h]

theorem step_of_reset {s : State} (h : nextMove s = some .reset ∨ ∃ c, nextMove s = some (.resetDuring c)) :
    step s = .next (resetBlock s) := by
  rcases h with h | ⟨c, h⟩ <;> simp only [step, h]

theorem step_of_illegal {s : State} {c : Command} (h : nextMove s = some (.command c))
    (hd : decodeCommand c = .illegalCommand) : step s = .next (respond (.error .illegalCommand) 0 0 s) := by
  simp only [step, h, hd, illegalCommand, raise]

theorem step_of_instr {s : State} {c : Command} {i : Instr} (h : nextMove s = some (.command c))
    (hd : decodeCommand c = .instr i) : step s = exec i s := by
  simp only [step, h, hd]

/-- Settles O8: both reset moves lead to `resetBlock s`, whose table is empty. -/
theorem resetLeavesNoCodebook : Obligations.ResetLeavesNoCodebook := by
  intro s m hm hreset
  have hmove : nextMove s = some .reset ∨ ∃ c, nextMove s = some (.resetDuring c) := by
    rcases hreset with rfl | ⟨c, rfl⟩
    · exact .inl hm
    · exact .inr ⟨c, hm⟩
  exact ⟨resetBlock s, step_of_reset hmove, rfl, rfl, rfl, fun _ => rfl, fun _ => rfl, rfl, rfl, rfl, rfl, rfl⟩

/-- Settles O9: the block of `State.reset` is `Block.reset`. -/
theorem powerOnStateIsTheResetState : Obligations.PowerOnStateIsTheResetState :=
  ⟨rfl, rfl, rfl, fun _ => rfl, rfl⟩

end Sys2Proof.Proofs
end

section
/-! SUPPORT. The invariant of the state (10_state.md R24, R26, R27): it speaks of K and the block only, and each operation
that changes the block keeps it. -/

namespace Sys2Proof.Proofs

open Sys2Proof Sys2Proof.Machine

/-- The invariant is about K and the block alone. -/
theorem inv_congr {s t : State} (hk : t.k = s.k) (hb : t.block = s.block) (h : s.Inv) : t.Inv where
  k := by simpa only [State.KOk, hk] using h.k
  table := by simpa only [State.TableOk, symbolCount, hk, hb] using h.table
  opened := by simpa only [State.OpenOk, hb] using h.opened
  sealed := by simpa only [State.SealedOk, hb] using h.sealed

theorem inv_respond {st : Status} {r0 r1 : Word} {s : State} (h : s.Inv) : (respond st r0 r1 s).Inv :=
  inv_congr (respond_k st r0 r1 s) (respond_block st r0 r1 s) h

theorem inv_setSource {src : Source} {s : State} (h : s.Inv) : (setSource src s).Inv :=
  inv_congr (setSource_k src s) (setSource_block src s) h

/-- The block after reset meets the invariant at any legal K (10_state.md R29). -/
theorem inv_of_block_reset {s : State} (hk : s.KOk) (hb : s.block = Block.reset) : s.Inv where
  k := hk
  table := by simp [State.TableOk, hb, Memory.wf, memRead]
  opened := by simp [State.OpenOk, hb]
  sealed := by simp [State.SealedOk, hb]

/-- A sealed codebook that meets the invariant has an entry, so `Nearest` has one to return (10_state.md R27). -/
theorem codebook_ne_nil {s : State} (h : s.Inv) (hs : s.block.cbSealed = true) : codebook s ≠ [] := by
  obtain ⟨-, ⟨a, v, hv⟩, -, -⟩ := h.sealed hs
  exact (hasEntry_iff s).1 ⟨a, v, h.table.2 a v hv, hv⟩

/-- In the open phase storing a codeword under a symbol of the space keeps the invariant (41_codebook.md R102). -/
theorem inv_writeEntry {s : State} {a : Nat} (v : Word) (h : s.Inv) (hs : s.block.cbSealed = false)
    (ha : a < symbolCount s) : (writeEntry a v s).Inv where
  k := h.k
  table := by
    obtain ⟨hwf, hspace⟩ := h.table
    refine ⟨memWrite_wf a v hwf, fun b u hb => ?_⟩
    rw [writeEntry_block_lut, memRead_memWrite] at hb
    split at hb
    · subst_vars; exact ha
    · exact hspace b u hb
  opened := h.opened
  sealed := fun hsealed => by simp [hs] at hsealed

/-- Sealing a table that satisfies R27 for the width and the distance establishes the invariant of the sealed phase
(10_state.md R24, R27). The distance kept is the lowest six bits of `d`, so it is at most `d`. -/
theorem inv_sealCodebook {s : State} {w d : Nat} (hk : s.KOk) (ht : s.TableOk) (hw : 1 ≤ w ∧ w ≤ 32)
    (hne : ∃ a v, memRead s.block.lut a = some v)
    (hfit : ∀ a v, memRead s.block.lut a = some v → v.toNat < 2 ^ w)
    (hfar : ∀ a b v u, memRead s.block.lut a = some v → memRead s.block.lut b = some u → a ≠ b →
      d ≤ hammingDistance v u w) : (sealCodebook w d s).Inv where
  k := hk
  table := ht
  opened := fun hopen => by simp at hopen
  sealed := fun _ => by
    have hwidth : (BitVec.ofNat 6 w).toNat = w := by
      rw [BitVec.toNat_ofNat, Nat.mod_eq_of_lt (by omega)]
    have hdmin : (BitVec.ofNat 6 d).toNat ≤ d := by
      rw [BitVec.toNat_ofNat]; exact Nat.mod_le _ _
    simp only [sealCodebook_block_cbWidth, sealCodebook_block_cbDmin, sealCodebook_block_lut, hwidth]
    exact ⟨hw, hne, hfit, fun a b v u hv hu hab => hdmin.trans (hfar a b v u hv hu hab)⟩

/-- CB_SEAL keeps the invariant: the verification that passed is R27 over the present entries (41_codebook.md R101, R104). -/
theorem inv_seal_of_verify {s : State} {w d : Nat} (h : s.Inv) (hw : 1 ≤ w ∧ w ≤ 32) (hn : presentCount s ≠ 0)
    (hv : verify s w d = .pass) : (sealCodebook w d s).Inv := by
  obtain ⟨hfit, hfar⟩ := verifyEntries_eq_pass.1 hv
  have hmem : ∀ {a v}, memRead s.block.lut a = some v → (a, v) ∈ codebook s := fun hr =>
    mem_codebook.2 ⟨h.table.2 _ _ hr, hr⟩
  refine inv_sealCodebook h.k h.table hw ?_ (fun a v hr => hfit _ (hmem hr)) fun a b v u hr hu hab => ?_
  · obtain ⟨a, v, -, hr⟩ := (hasEntry_iff s).2 fun hnil => hn (by simp [presentCount, hnil])
    exact ⟨a, v, hr⟩
  · have : Std.Symm fun e f : Nat × Word => d ≤ hammingDistance e.2 f.2 w :=
      ⟨fun e f hef => by rwa [hammingDistance_comm]⟩
    have hpair := hfar.forall (hmem hr) (hmem hu)
    exact hpair fun heq => hab (congrArg Prod.fst heq)

/-- A list of codewords no longer than the symbol space loads as a canonical table (41_codebook.md R106). -/
theorem tableOk_loadTable {s : State} {codewords : List Word} (hlen : codewords.length ≤ symbolCount s) :
    (loadTable codewords s).TableOk := by
  refine ⟨mapIdx_wf codewords, fun a v hr => ?_⟩
  rw [loadTable_block_lut, memRead_mapIdx] at hr
  exact (List.getElem?_eq_some_iff.1 hr).1.trans_le hlen

/-- Codewords far from each other in one order of their places are so in the other. -/
theorem far_of_pairwise {l : List Word} {w d : Nat} (h : l.Pairwise fun x y => d ≤ hammingDistance x y w) {a b : Nat}
    {v u : Word} (hv : l[a]? = some v) (hu : l[b]? = some u) (hab : a ≠ b) : d ≤ hammingDistance v u w := by
  obtain ⟨ha, rfl⟩ := List.getElem?_eq_some_iff.1 hv
  obtain ⟨hb, rfl⟩ := List.getElem?_eq_some_iff.1 hu
  rcases Nat.lt_or_gt_of_ne hab with hlt | hlt
  · exact List.pairwise_iff_getElem.1 h a b ha hb hlt
  · rw [hammingDistance_comm]
    exact List.pairwise_iff_getElem.1 h b a hb ha hlt

/-- CB_GEN keeps the invariant: the greedy search finds codewords of the width, far from each other (41_codebook.md R105,
R106). -/
theorem inv_seal_of_greedy {s : State} {w d n : Nat} {codewords : List Word} (hk : s.KOk) (hw : 1 ≤ w ∧ w ≤ 32)
    (hn : 1 ≤ n ∧ n ≤ symbolCount s) (hg : greedy n w d = some codewords) :
    (sealCodebook w d (loadTable codewords s)).Inv := by
  obtain ⟨e, he, hlen, hinv, -⟩ := (greedy_spec hn.1 hw.2).1 codewords hg
  refine inv_sealCodebook hk (tableOk_loadTable (hlen.trans_le hn.2)) hw ?_ (fun a v hr => ?_)
    fun a b v u hr hu hab => ?_
  · exact ⟨0, codewords[0], by simp⟩
  · rw [loadTable_block_lut, memRead_mapIdx] at hr
    exact (hinv.below v (List.mem_of_getElem? hr)).trans_le he
  · rw [loadTable_block_lut, memRead_mapIdx] at hr hu
    exact far_of_pairwise hinv.far hr hu hab

end Sys2Proof.Proofs
end

section
/-! SUPPORT. The state from step to step (10_state.md): every step keeps the invariant and answers, the sealed phase ends by
reset only, and an answer depends on K, the block and the source. -/

namespace Sys2Proof.Proofs

open Sys2Proof Sys2Proof.Machine

/-- Settles O11: `State.reset` has the block after reset and a legal K. -/
theorem resetStateMeetsTheInvariant : Obligations.ResetStateMeetsTheInvariant :=
  inv_of_block_reset ⟨by decide, by decide⟩ reset_block

/-- Every instruction keeps the invariant, whichever shape its answer has. -/
theorem exec_inv {i : Instr} {s t : State} (hinv : s.Inv) (h : exec i s = .next t) : t.Inv := by
  cases exec_shape i s with
  | fail e info hx =>
    rw [hx, raise_eq_next] at h; subst h
    exact inv_respond hinv
  | keep r0 r1 hx =>
    rw [hx, finish_eq_next] at h; subst h
    exact inv_respond hinv
  | write a v hi hs ha hx =>
    rw [hx, finish_eq_next] at h; subst h
    exact inv_respond (inv_writeEntry v hinv hs ha)
  | seals w d hi hs hw hn hv hx =>
    rw [hx, finish_eq_next] at h; subst h
    exact inv_respond (inv_seal_of_verify hinv hw hn hv)
  | gens w d n acc hi hs hw hn hg hx =>
    rw [hx, finish_eq_next] at h; subst h
    exact inv_respond (inv_seal_of_greedy hinv.k hw hn hg)
  | corrupts w b m mode x hi hl hx =>
    rw [hx, finish_eq_next] at h; subst h
    exact inv_respond (inv_setSource hinv)
  | stop r hi hs hr hn hx => rw [hx] at h; cases h

/-- Settles O12, by the four ways to a next state; the work is in `exec_inv`. -/
theorem everyStepKeepsTheInvariant : Obligations.EveryStepKeepsTheInvariant := by
  intro s t hinv h
  rcases step_cases h with ⟨-, rfl⟩ | ⟨-, rfl⟩ | ⟨c, -, -, rfl⟩ | ⟨c, i, -, -, hx⟩
  · exact hinv
  · exact inv_of_block_reset hinv.k (resetBlock_block s)
  · exact inv_respond hinv
  · exact exec_inv hinv hx

/-- Under the invariant every instruction answers: the one stop needs a sealed codebook with no entry (LOG 9). -/
theorem exec_answers {s : State} (i : Instr) (hinv : s.Inv) : ∃ t, exec i s = .next t := by
  cases exec_shape i s with
  | fail e info hx => exact ⟨_, hx⟩
  | keep r0 r1 hx => exact ⟨_, hx⟩
  | write a v hi hs ha hx => exact ⟨_, hx⟩
  | seals w d hi hs hw hn hv hx => exact ⟨_, hx⟩
  | gens w d n acc hi hs hw hn hg hx => exact ⟨_, hx⟩
  | corrupts w b m mode x hi hl hx => exact ⟨_, hx⟩
  | stop r hi hs hr hn hx => exact absurd hn (codebook_ne_nil hinv hs)

/-- Settles O13, by the host's next move and what its command decodes to. -/
theorem everyStepAnswers : Obligations.EveryStepAnswers := by
  intro s hinv
  cases hm : nextMove s with
  | none => exact ⟨_, step_of_idle hm⟩
  | some m =>
    cases m with
    | reset => exact ⟨_, step_of_reset (.inl hm)⟩
    | resetDuring c => exact ⟨_, step_of_reset (.inr ⟨c, hm⟩)⟩
    | command c =>
      cases hd : decodeCommand c with
      | illegalCommand => exact ⟨_, step_of_illegal hm hd⟩
      | instr i =>
        rw [step_of_instr hm hd]
        exact exec_answers i hinv

/-- In the sealed phase no instruction changes the block: the three that write to it need the open phase (41_codebook.md
R100). -/
theorem exec_block_of_sealed {i : Instr} {s t : State} (hs : s.block.cbSealed = true) (h : exec i s = .next t) :
    t.block = s.block := by
  cases exec_shape i s with
  | fail e info hx => rw [hx, raise_eq_next] at h; subst h; rfl
  | keep r0 r1 hx => rw [hx, finish_eq_next] at h; subst h; rfl
  | corrupts w b m mode x hi hl hx => rw [hx, finish_eq_next] at h; subst h; rfl
  | write a v hi hopen => simp [hs] at hopen
  | seals w d hi hopen => simp [hs] at hopen
  | gens w d n acc hi hopen => simp [hs] at hopen
  | stop r hi hsealed hr hn hx => rw [hx] at h; cases h

/-- Settles O19: of the four ways to a next state only a reset changes the block of the sealed phase. -/
theorem onlyResetUnseals : Obligations.OnlyResetUnseals := by
  intro s t hs h hne
  rcases step_cases h with ⟨-, rfl⟩ | ⟨hmove, rfl⟩ | ⟨c, -, -, rfl⟩ | ⟨c, i, -, -, hx⟩
  · exact absurd rfl hne
  · exact ⟨resetBlock_block s, hmove⟩
  · exact absurd (respond_block ..) hne
  · exact absurd (exec_block_of_sealed hs hx) hne

/-- Settles O21: from equal K, block and source `exec_congr` gives the same answer. -/
theorem answersDependOnBlockAndSourceOnly : Obligations.AnswersDependOnBlockAndSourceOnly := by
  intro i s s' t hk hb hsource ht
  have same : SameAnswer i s s' (exec i s) (exec i s') := exec_congr i hk hb (.inr hsource)
  rw [ht] at same
  obtain ⟨t', ht', eff⟩ := sameAnswer_next same
  obtain ⟨r, hr, hr'⟩ := eff.response
  exact ⟨t', r, ht', eff.block, eff.source hsource, hr, hr'⟩

end Sys2Proof.Proofs
end

section
/-! SUPPORT. The frames of the commands over the block and the source (20_memory.md R42, 10_state.md R24, 43_channel.md R132):
of the shapes of an answer, an error and an OK that only reads change neither, and each other shape names its command. -/

namespace Sys2Proof.Proofs

open Sys2Proof Sys2Proof.Machine

/-- Giving a response is all that an error and a command that only reads do. -/
theorem respond_untouched (st : Status) (r0 r1 : Word) (s : State) : Untouched s (respond st r0 r1 s) :=
  ⟨respond_block st r0 r1 s, respond_source st r0 r1 s⟩

/-- No instruction changes the host's list of moves or K (10_state.md R22, 00_scope.md R6). -/
theorem exec_program_k {i : Instr} {s t : State} (h : exec i s = .next t) : t.program = s.program ∧ t.k = s.k := by
  cases exec_shape i s with
  | fail e info hx => rw [hx, raise_eq_next] at h; subst h; simp
  | keep r0 r1 hx => rw [hx, finish_eq_next] at h; subst h; simp
  | write a v hi hs ha hx => rw [hx, finish_eq_next] at h; subst h; simp
  | seals w d hi hs hw hn hv hx => rw [hx, finish_eq_next] at h; subst h; simp
  | gens w d n acc hi hs hw hn hg hx => rw [hx, finish_eq_next] at h; subst h; simp
  | corrupts w b m mode x hi hl hx => rw [hx, finish_eq_next] at h; subst h; simp
  | stop r hi hs hr hn hx => rw [hx] at h; cases h

/-- Settles O56: the shapes that change the block or the source are those of the four excluded commands. -/
theorem readingCommandsTouchNothing : Obligations.ReadingCommandsTouchNothing := by
  intro i s t hwrite hseal hgen hcorrupt h
  refine ⟨?_, exec_program_k h⟩
  cases exec_shape i s with
  | fail e info hx => rw [hx, raise_eq_next] at h; subst h; exact respond_untouched ..
  | keep r0 r1 hx => rw [hx, finish_eq_next] at h; subst h; exact respond_untouched ..
  | write a v hi => exact absurd hi (hwrite a v)
  | seals w d hi => exact absurd hi (hseal w d)
  | gens w d n acc hi => exact absurd hi (hgen w d n)
  | corrupts w b m mode x hi => exact absurd hi (hcorrupt w b m mode x)
  | stop r hi hs hr hn hx => rw [hx] at h; cases h

/-- Settles O20: in each shape of an answer, the parts it changes are parts that its command may change. -/
theorem whoWritesWhichState : Obligations.WhoWritesWhichState := by
  intro i s t h
  cases exec_shape i s with
  | fail e info hx => rw [hx, raise_eq_next] at h; subst h; simp
  | keep r0 r1 hx => rw [hx, finish_eq_next] at h; subst h; simp
  | write a v hi hs ha hx =>
    rw [hx, finish_eq_next] at h; subst h
    exact ⟨fun _ => .inl ⟨a, v, hi⟩, by simp, by simp⟩
  | seals w d hi hs hw hn hv hx =>
    rw [hx, finish_eq_next] at h; subst h
    exact ⟨by simp, fun _ => .inl ⟨w, d, hi⟩, by simp⟩
  | gens w d n acc hi hs hw hn hg hx =>
    rw [hx, finish_eq_next] at h; subst h
    exact ⟨fun _ => .inr ⟨w, d, n, hi⟩, fun _ => .inr ⟨w, d, n, hi⟩, by simp⟩
  | corrupts w b m mode x hi hl hx =>
    rw [hx, finish_eq_next] at h; subst h
    exact ⟨by simp, by simp, fun _ => ⟨w, b, m, mode, x, hi⟩⟩
  | stop r hi hs hr hn hx => rw [hx] at h; cases h

end Sys2Proof.Proofs
end

section
/-! SUPPORT. A control word as its seven fields (30_encoding.md R61): joined, compared and masked field by field. -/

namespace Sys2Proof.Proofs

open Sys2Proof Sys2Proof.Machine

/-- The opcode `OP`, bits 31:27 of the control word (30_encoding.md R61). -/
def fieldOp (cw : Word) : Nat := (cw.extractLsb' 27 5).toNat

/-- Two words joined from parts of the same widths are equal exactly when their parts are. -/
theorem append_eq_append_iff {m n : Nat} {a c : BitVec m} {b d : BitVec n} : a ++ b = c ++ d ↔ a = c ∧ b = d := by
  constructor
  · intro h
    have ha := congrArg (BitVec.extractLsb' n m) h
    have hb := congrArg (BitVec.extractLsb' 0 n) h
    rw [BitVec.extractLsb'_append_eq_left, BitVec.extractLsb'_append_eq_left] at ha
    rw [BitVec.extractLsb'_append_eq_right, BitVec.extractLsb'_append_eq_right] at hb
    exact ⟨ha, hb⟩
  · rintro ⟨rfl, rfl⟩
    rfl

/-- A control word from its seven fields (30_encoding.md R61). -/
def joinFields (op : BitVec 5) (f1 f2 f3 : BitVec 6) (m v : BitVec 1) (z : BitVec 7) : Word :=
  op ++ f1 ++ f2 ++ f3 ++ m ++ v ++ z

/-- Two control words are equal exactly when all their fields are. -/
theorem joinFields_inj {op op' : BitVec 5} {f1 f2 f3 f1' f2' f3' : BitVec 6} {m v m' v' : BitVec 1} {z z' : BitVec 7} :
    joinFields op f1 f2 f3 m v z = joinFields op' f1' f2' f3' m' v' z' ↔
      op = op' ∧ f1 = f1' ∧ f2 = f2' ∧ f3 = f3' ∧ m = m' ∧ v = v' ∧ z = z' := by
  constructor
  · intro h
    obtain ⟨h, hz⟩ := append_eq_append_iff.1 h
    simp only [append_eq_append_iff] at h
    obtain ⟨⟨⟨⟨⟨hop, h1⟩, h2⟩, h3⟩, hm⟩, hv⟩ := h
    exact ⟨hop, h1, h2, h3, hm, hv, hz⟩
  · rintro ⟨rfl, rfl, rfl, rfl, rfl, rfl, rfl⟩
    rfl

/-- Masking works field by field. -/
theorem joinFields_and (op op' : BitVec 5) (f1 f2 f3 f1' f2' f3' : BitVec 6) (m v m' v' : BitVec 1) (z z' : BitVec 7) :
    joinFields op f1 f2 f3 m v z &&& joinFields op' f1' f2' f3' m' v' z' =
      joinFields (op &&& op') (f1 &&& f1') (f2 &&& f2') (f3 &&& f3') (m &&& m') (v &&& v') (z &&& z') := by
  simp only [joinFields, ← BitVec.and_append]

/-- The fields of a control word, joined, are the control word (30_encoding.md R61). -/
theorem joinFields_extractLsb' (cw : Word) :
    joinFields (cw.extractLsb' 27 5) (cw.extractLsb' 21 6) (cw.extractLsb' 15 6) (cw.extractLsb' 9 6) (cw.extractLsb' 8 1)
      (cw.extractLsb' 7 1) (cw.extractLsb' 0 7) = cw := by
  simp only [joinFields, BitVec.extractLsb'_append_extractLsb'_eq_extractLsb']
  exact BitVec.extractLsb'_eq_self

theorem controlWord_eq_joinFields (op f1 f2 f3 : Nat) (m v : Bool) :
    controlWord op f1 f2 f3 m v = joinFields (BitVec.ofNat 5 op) (BitVec.ofNat 6 f1) (BitVec.ofNat 6 f2)
      (BitVec.ofNat 6 f3) (BitVec.ofBool m) (BitVec.ofBool v) 0 := rfl

/-- A field of one bit is that bit. -/
theorem extractLsb'_one (cw : Word) (i : Nat) : cw.extractLsb' i 1 = BitVec.ofBool (cw.getLsbD i) := by
  apply BitVec.eq_of_getLsbD_eq
  intro j hj
  obtain rfl : j = 0 := by omega
  simp

/-- A control word with `Z` 0 is written back from its fields (30_encoding.md R61). -/
theorem controlWord_fields {cw : Word} (hz : (cw.extractLsb' 0 7).toNat = 0) :
    controlWord (fieldOp cw) (fieldF1 cw) (fieldF2 cw) (fieldF3 cw) (cw.getLsbD 8) (cw.getLsbD 7) = cw := by
  have hz' : cw.extractLsb' 0 7 = 0 := BitVec.eq_of_toNat_eq hz
  conv_rhs => rw [← joinFields_extractLsb' cw, hz', extractLsb'_one, extractLsb'_one]
  simp only [controlWord_eq_joinFields, fieldOp, fieldF1, fieldF2, fieldF3, BitVec.ofNat_toNat, BitVec.setWidth_eq]

end Sys2Proof.Proofs
end

section
/-! SUPPORT. The mask of a row of the table, as the fields that the row's opcode leaves unused (30_encoding.md R62): a row
selects a control word exactly when the opcode is the row's and the unused fields are 0, and no two rows select the same
one. -/

namespace Sys2Proof.Proofs

open Sys2Proof Sys2Proof.Machine

/-- A row's mask on one field of `n` bits: nothing on a field that the opcode uses, every bit of one that it does not
(30_encoding.md R62). -/
def fieldMask (used : Prop) [Decidable used] (n : Nat) : BitVec n := if used then 0 else BitVec.allOnes n

/-- The mask of an opcode: `OP`, `Z` and the fields that the opcode does not use (30_encoding.md R62). -/
def opcodeMask (op : Nat) : Word :=
  joinFields (BitVec.allOnes 5) (fieldMask (op ∈ [1, 4, 5, 6, 10]) 6) (fieldMask (op ∈ [4, 5, 6, 10]) 6)
    (fieldMask (op ∈ [6, 10]) 6) (fieldMask (op = 10) 1) (fieldMask (op ∈ [11, 12]) 1) (BitVec.allOnes 7)

/-- `Z` and the fields that the opcode does not use are 0 (30_encoding.md R62). -/
def UnusedZero (op : Nat) (cw : Word) : Prop :=
  (op ∉ [1, 4, 5, 6, 10] → fieldF1 cw = 0) ∧ (op ∉ [4, 5, 6, 10] → fieldF2 cw = 0) ∧
    (op ∉ [6, 10] → fieldF3 cw = 0) ∧ (op ≠ 10 → cw.getLsbD 8 = false) ∧
    (op ∉ [11, 12] → cw.getLsbD 7 = false) ∧ (cw.extractLsb' 0 7).toNat = 0

/-- A masked field is 0 exactly when it is used, so that the mask leaves it out, or is 0 itself. -/
theorem and_fieldMask_eq_zero {used : Prop} [Decidable used] {n : Nat} {x : BitVec n} :
    x &&& fieldMask used n = 0#n ↔ (¬ used → x.toNat = 0) := by
  by_cases h : used <;> simp [fieldMask, h, BitVec.toNat_eq]

/-- The same for a field of one bit. -/
theorem ofBool_and_fieldMask_eq_zero {used : Prop} [Decidable used] {b : Bool} :
    BitVec.ofBool b &&& fieldMask used 1 = 0 ↔ (¬ used → b = false) := by
  refine and_fieldMask_eq_zero.trans ?_
  cases b <;> simp

/-- The opcode as a field of the word and as a number. -/
theorem extractLsb'_op_eq_iff {op : Nat} (hop : op < 32) (cw : Word) :
    cw.extractLsb' 27 5 = BitVec.ofNat 5 op ↔ fieldOp cw = op := by
  rw [BitVec.toNat_eq, BitVec.toNat_ofNat, Nat.mod_eq_of_lt hop, fieldOp]

/-- Masking a control word leaves the bare opcode exactly when the control word is one of that opcode. -/
theorem and_opcodeMask_eq_iff {op : Nat} (hop : op < 32) (cw : Word) :
    cw &&& opcodeMask op = controlWord op 0 0 0 false false ↔ fieldOp cw = op ∧ UnusedZero op cw := by
  have hz : cw.extractLsb' 0 7 = 0 ↔ (cw.extractLsb' 0 7).toNat = 0 := BitVec.toNat_eq
  conv_lhs => rw [← joinFields_extractLsb' cw, opcodeMask, controlWord_eq_joinFields, joinFields_and, joinFields_inj]
  simp only [UnusedZero, BitVec.and_allOnes, extractLsb'_one, BitVec.ofBool_false, and_fieldMask_eq_zero,
    ofBool_and_fieldMask_eq_zero, extractLsb'_op_eq_iff hop, hz]
  rfl

/-- Each row's mask and pattern are those of its opcode (30_encoding.md R62). -/
theorem row_mask_pattern : ∀ row ∈ opcodeRows, fieldOp row.pattern < 32 ∧ row.mask = opcodeMask (fieldOp row.pattern) ∧
    row.pattern = controlWord (fieldOp row.pattern) 0 0 0 false false := by decide

/-- The rows in table order have the opcodes 1 to 14 (30_encoding.md R62). -/
theorem map_fieldOp_opcodeRows : (opcodeRows.map fun row => fieldOp row.pattern) = List.range' 1 14 := by decide

/-- A row selects a control word exactly when the opcode is the row's and every unused field is 0 (30_encoding.md R62). -/
theorem selects_iff {row : OpcodeRow} (hrow : row ∈ opcodeRows) (cw : Word) :
    row.selects cw = true ↔ fieldOp cw = fieldOp row.pattern ∧ UnusedZero (fieldOp row.pattern) cw := by
  obtain ⟨hop, hmask, hpattern⟩ := row_mask_pattern row hrow
  rw [← and_opcodeMask_eq_iff hop, ← hmask, ← hpattern, OpcodeRow.selects, beq_iff_eq]

/-- No two rows have the same opcode, so no two select one control word (30_encoding.md R65). -/
theorem row_unique {row row' : OpcodeRow} (hrow : row ∈ opcodeRows) (hrow' : row' ∈ opcodeRows) {cw : Word}
    (h : row.selects cw = true) (h' : row'.selects cw = true) : row = row' := by
  have hnodup : (opcodeRows.map fun row => fieldOp row.pattern).Nodup := by
    rw [map_fieldOp_opcodeRows]
    exact List.nodup_range'
  refine List.inj_on_of_nodup_map hnodup hrow hrow' ?_
  rw [← ((selects_iff hrow cw).1 h).1, ((selects_iff hrow' cw).1 h').1]

/-- Some row selects a control word exactly when its opcode is one of the fourteen and its unused fields are 0. -/
theorem exists_selects_iff (cw : Word) :
    (∃ row ∈ opcodeRows, row.selects cw = true) ↔ (1 ≤ fieldOp cw ∧ fieldOp cw < 15) ∧ UnusedZero (fieldOp cw) cw := by
  have hmem (op : Nat) : (∃ row ∈ opcodeRows, fieldOp row.pattern = op) ↔ 1 ≤ op ∧ op < 15 := by
    rw [← List.mem_map, map_fieldOp_opcodeRows, List.mem_range'_1]
  rw [← hmem]
  constructor
  · rintro ⟨row, hrow, h⟩
    obtain ⟨hop, hzero⟩ := (selects_iff hrow cw).1 h
    exact ⟨⟨row, hrow, hop.symm⟩, hop ▸ hzero⟩
  · rintro ⟨⟨row, hrow, hop⟩, hzero⟩
    exact ⟨row, hrow, (selects_iff hrow cw).2 ⟨hop.symm, hop ▸ hzero⟩⟩

end Sys2Proof.Proofs
end

section
/-! SUPPORT. The decoder by the rows of the table (30_encoding.md R65), and against the encoder (R61 to R63). -/

namespace Sys2Proof.Proofs

open Sys2Proof Sys2Proof.Machine

/-- The row that a control word selects is the one that is decoded (30_encoding.md R65). -/
theorem decodeCommand_of_selects {c : Command} {row : OpcodeRow} (hrow : row ∈ opcodeRows)
    (h : row.selects c.cw = true) : decodeCommand c = .instr (row.operands c) := by
  unfold decodeCommand
  cases hf : opcodeRows.find? (fun row => row.selects c.cw) with
  | none => exact absurd h (List.find?_eq_none.1 hf row hrow)
  | some found =>
    have hfound : found.selects c.cw = true := List.find?_some (p := fun row : OpcodeRow => row.selects c.cw) hf
    rw [row_unique (List.mem_of_find?_eq_some hf) hrow hfound h]

/-- ILLEGAL is the answer exactly when no row selects the control word (30_encoding.md R65). -/
theorem decodeCommand_eq_illegal_iff (c : Command) :
    decodeCommand c = .illegalCommand ↔ ¬ ∃ row ∈ opcodeRows, row.selects c.cw = true := by
  constructor
  · rintro hd ⟨row, hrow, h⟩
    rw [decodeCommand_of_selects hrow h] at hd
    cases hd
  · intro hnone
    cases hd : decodeCommand c with
    | illegalCommand => rfl
    | instr i =>
      obtain ⟨row, hrow, h, -⟩ := decode_row hd
      exact absurd ⟨row, hrow, h⟩ hnone

/-- Settles O3: the opcodes of the rows differ, so the first row that selects is the only one. -/
theorem exactlyOneRowOrIllegal : Obligations.ExactlyOneRowOrIllegal := by
  refine ⟨fun c row => decodeCommand_of_selects, fun c hnone => ?_, fun cw row row' hrow hrow' => row_unique hrow hrow'⟩
  rw [decodeCommand_eq_illegal_iff]
  rintro ⟨row, hrow, h⟩
  simp [hnone row hrow] at h

/-- The family of Laws/PerInstr.lean over all instructions: each one is encoded in its own row (30_encoding.md R62, R63). -/
theorem encodesInItsRow (i : Instr) : Laws.EncodesInItsRow.Statement i := by
  cases i with
  | hdist width a b => exact Laws.EncodesInItsRow.hdist width a b
  | popcnt x => exact Laws.EncodesInItsRow.popcnt x
  | cbWrite symbol codeword => exact Laws.EncodesInItsRow.cbWrite symbol codeword
  | cbVerify width dmin => exact Laws.EncodesInItsRow.cbVerify width dmin
  | cbSeal width dmin => exact Laws.EncodesInItsRow.cbSeal width dmin
  | cbGen width dmin count => exact Laws.EncodesInItsRow.cbGen width dmin count
  | cbStat => exact Laws.EncodesInItsRow.cbStat
  | encode symbol => exact Laws.EncodesInItsRow.encode symbol
  | decode received => exact Laws.EncodesInItsRow.decode received
  | corrupt width block maxFlips mode word => exact Laws.EncodesInItsRow.corrupt width block maxFlips mode word
  | frameEnc variant payload => exact Laws.EncodesInItsRow.frameEnc variant payload
  | frameDec variant frame => exact Laws.EncodesInItsRow.frameDec variant frame
  | val12Enc value => exact Laws.EncodesInItsRow.val12Enc value
  | val12Dec frames => exact Laws.EncodesInItsRow.val12Dec frames

/-- Settles O1: the row of the instruction's mnemonic selects its control word, so it is the row that is decoded. -/
theorem decodeEncodeRoundTrip : Obligations.DecodeEncodeRoundTrip := by
  intro i hwf
  obtain ⟨row, hrow, -, hi⟩ := encodesInItsRow i
  obtain ⟨hselects, hoperands⟩ := hi hwf
  rw [decodeCommand_of_selects hrow hselects, hoperands]

/-- The control word `cw` with its opcode replaced by `op` and only the fields that `op` uses kept (30_encoding.md R62). -/
def keepUsed (op : Nat) (cw : Word) : Word :=
  controlWord op (if op ∈ [1, 4, 5, 6, 10] then fieldF1 cw else 0) (if op ∈ [4, 5, 6, 10] then fieldF2 cw else 0)
    (if op ∈ [6, 10] then fieldF3 cw else 0) (if op = 10 then cw.getLsbD 8 else false)
    (if op ∈ [11, 12] then cw.getLsbD 7 else false)

/-- Nothing is dropped from a control word whose unused fields are 0. -/
theorem keepUsed_of_unusedZero {cw : Word} (h : UnusedZero (fieldOp cw) cw) : keepUsed (fieldOp cw) cw = cw := by
  obtain ⟨h1, h2, h3, hm, hv, hz⟩ := h
  rw [keepUsed, ite_eq_left_iff.2 fun h => (h1 h).symm, ite_eq_left_iff.2 fun h => (h2 h).symm,
    ite_eq_left_iff.2 fun h => (h3 h).symm, ite_eq_left_iff.2 fun h => (hm h).symm, ite_eq_left_iff.2 fun h => (hv h).symm,
    controlWord_fields hz]

/-- What a row assembles encodes to the row's opcode with the fields that the opcode uses (30_encoding.md R62, R63). -/
theorem encode_operands_cw {row : OpcodeRow} (hrow : row ∈ opcodeRows) (c : Command) :
    (encodeCommand (row.operands c)).cw = keepUsed (fieldOp row.pattern) c.cw := by
  simp only [keepUsed, ← fieldM_bit, ← fieldV_bit]
  fin_cases hrow <;> rfl

/-- What a row assembles is well-formed: its numbers are fields of six bits (30_encoding.md R61). -/
theorem operands_wellFormed {row : OpcodeRow} (hrow : row ∈ opcodeRows) (c : Command) :
    (row.operands c).wellFormed = true := by
  fin_cases hrow <;> simp [Instr.wellFormed, fitsField, fieldF1_lt, fieldF2_lt, fieldF3_lt]

/-- Settles O2: encoding keeps the used fields of the control word, and the unused ones of a selected control word are 0. -/
theorem decodedInstructionKeepsItsControlWord : Obligations.DecodedInstructionKeepsItsControlWord := by
  intro c i hd
  obtain ⟨row, hrow, hselects, rfl⟩ := decode_row hd
  obtain ⟨hop, hzero⟩ := (selects_iff hrow c.cw).1 hselects
  have hwf := operands_wellFormed hrow c
  refine ⟨hwf, ?_, decodeEncodeRoundTrip _ hwf⟩
  rw [encode_operands_cw hrow, ← hop, keepUsed_of_unusedZero (hop ▸ hzero)]

/-- HDIST and CB_WRITE are the only rows that take `DB` as an operand (30_encoding.md R63). -/
theorem operands_ignore_db {row : OpcodeRow} (hrow : row ∈ opcodeRows) (cw da db db' : Word)
    (hhdist : ∀ w a b, row.operands ⟨cw, da, db⟩ ≠ .hdist w a b)
    (hwrite : ∀ a b, row.operands ⟨cw, da, db⟩ ≠ .cbWrite a b) :
    row.operands ⟨cw, da, db'⟩ = row.operands ⟨cw, da, db⟩ := by
  fin_cases hrow
  · exact absurd rfl (hhdist _ _ _)
  · rfl
  · exact absurd rfl (hwrite _ _)
  all_goals rfl

/-- The rows of CB_VERIFY, CB_SEAL, CB_GEN and CB_STAT take no data word as an operand (30_encoding.md R63). -/
theorem operands_ignore_data {row : OpcodeRow} (hrow : row ∈ opcodeRows) (cw da db da' db' : Word)
    (h : (∃ w d, row.operands ⟨cw, da, db⟩ = .cbVerify w d) ∨ (∃ w d, row.operands ⟨cw, da, db⟩ = .cbSeal w d) ∨
      (∃ w d n, row.operands ⟨cw, da, db⟩ = .cbGen w d n) ∨ row.operands ⟨cw, da, db⟩ = .cbStat) :
    row.operands ⟨cw, da', db'⟩ = row.operands ⟨cw, da, db⟩ := by
  fin_cases hrow <;> simp at h ⊢

/-- Settles O5: other data words select the same row, and its operands do not take them. -/
theorem unusedDataWordsAreIgnored : Obligations.UnusedDataWordsAreIgnored := by
  intro cw da db da' db' i hd
  obtain ⟨row, hrow, hselects, rfl⟩ := decode_row hd
  refine ⟨fun hhdist hwrite => ?_, fun hnone => ?_⟩
  · rw [← operands_ignore_db hrow cw da db db' hhdist hwrite]
    exact decodeCommand_of_selects hrow hselects
  · rw [← operands_ignore_data hrow cw da db da' db' hnone]
    exact decodeCommand_of_selects hrow hselects

/-- Settles O6: the decoder evaluated on each word. -/
theorem sampleWordsDecodeAsTheTableSays : Obligations.SampleWordsDecodeAsTheTableSays :=
  ⟨by decide, by decide, by decide, by decide, by decide, by decide⟩

end Sys2Proof.Proofs
end

section
/-! SUPPORT. The step of a command (30_encoding.md R64 to R66, 10_state.md R22): an illegal one is refused, and every one that
is answered gets one response. -/

namespace Sys2Proof.Proofs

open Sys2Proof Sys2Proof.Machine

/-- Settles O4: the condition is the negation of "some row selects" in terms of the fields, and the step of an illegal command
is one response. -/
theorem illegalCommandsAreRefused : Obligations.IllegalCommandsAreRefused := by
  refine ⟨fun c => ?_, fun s c hmove hd => ?_⟩
  · rw [decodeCommand_eq_illegal_iff, exists_selects_iff, UnusedZero]
    unfold fieldOp
    grind
  · exact ⟨_, step_of_illegal hmove hd, by simp [Answered], respond_untouched ..⟩

/-- Settles O7: `step_of_instr` at the host's next move. -/
theorem stepRunsTheDecodedInstruction : Obligations.StepRunsTheDecodedInstruction :=
  fun _ _ _ hmove hd => step_of_instr hmove hd

/-- Settles O15: an illegal command gets its error response, and any other the one that its instruction gives. -/
theorem everyCommandGetsOneResponse : Obligations.EveryCommandGetsOneResponse := by
  intro s t c hmove h
  cases hd : decodeCommand c with
  | illegalCommand =>
    rw [step_of_illegal hmove hd] at h
    cases h
    exact ⟨⟨.error .illegalCommand, 0, 0⟩, by simp [Answered]⟩
  | instr i =>
    rw [step_of_instr hmove hd] at h
    obtain ⟨st, r0, r1, u, rfl, hresponses, hpc, hprogram, hk, -⟩ := exec_next_cases h
    exact ⟨⟨st, r0, r1⟩, by simp [Answered, hresponses, hpc, hprogram, hk]⟩

end Sys2Proof.Proofs
end

section
/-! SUPPORT. The bit count and the distance (40_bitmetric.md R90, R91, R95): the distance as a length, its bound, when it is 0,
and the triangle inequality; the answers of HDIST and POPCNT (R92, R93). -/

namespace Sys2Proof.Proofs

open Sys2Proof Sys2Proof.Machine

/-! ## The distance -/

/-- The distance as the number of the differing positions (40_bitmetric.md R91). -/
theorem hammingDistance_eq_length (a b : Word) (w : Nat) :
    hammingDistance a b w = ((List.range (min w 32)).filter fun i => a.getLsbD i != b.getLsbD i).length := by
  rw [hammingDistance_eq, popcountBelow_eq_length]
  simp only [BitVec.getLsbD_xor, Bool.bne_eq_xor]

theorem hammingDistance_le (a b : Word) (w : Nat) : hammingDistance a b w ≤ min w 32 := by
  rw [hammingDistance_eq]
  exact popcountBelow_le _ _

/-- From width 32 on every bit of a word is compared (40_bitmetric.md R91). -/
theorem hammingDistance_of_wide {w : Nat} (hw : 32 ≤ w) (a b : Word) : hammingDistance a b w = hammingDistance a b 32 := by
  rw [hammingDistance_eq, hammingDistance_eq, Nat.min_eq_right hw, Nat.min_self]

/-- Words are at distance 0 exactly when they agree on every position that is compared. -/
theorem hammingDistance_eq_zero_iff {a b : Word} {w : Nat} :
    hammingDistance a b w = 0 ↔ ∀ i < min w 32, a.getLsbD i = b.getLsbD i := by
  simp only [hammingDistance_eq, popcountBelow_eq_zero, BitVec.getLsbD_xor, bne_eq_false_iff_eq]

/-- A word below `2 ^ w` has no set bit from `w` on. -/
theorem getLsbD_eq_false_of_toNat_lt {x : Word} {w i : Nat} (hx : x.toNat < 2 ^ w) (hi : w ≤ i) : x.getLsbD i = false :=
  Nat.testBit_lt_two_pow (hx.trans_le (Nat.pow_le_pow_right (by decide) hi))

/-- Between words of `w` bits only equal ones are at distance 0 (40_bitmetric.md R95, law 2): above `w` both have zeros. -/
theorem hammingDistance_eq_zero_iff_eq {a b : Word} {w : Nat} (ha : a.toNat < 2 ^ w) (hb : b.toNat < 2 ^ w) :
    hammingDistance a b w = 0 ↔ a = b := by
  rw [hammingDistance_eq_zero_iff]
  refine ⟨fun h => BitVec.eq_of_getLsbD_eq fun i hi => ?_, fun h i _ => by rw [h]⟩
  rcases Nat.lt_or_ge i w with hlow | hhigh
  · exact h i (Nat.lt_min.2 ⟨hlow, hi⟩)
  · rw [getLsbD_eq_false_of_toNat_lt ha hhigh, getLsbD_eq_false_of_toNat_lt hb hhigh]

/-- Two bits that differ cannot both agree with a third. -/
theorem toNat_xor_le : ∀ p q r : Bool, (p ^^ r).toNat ≤ (p ^^ q).toNat + (q ^^ r).toNat := by decide

/-- A position where `a` and `c` differ is one where `a` and `b` differ or `b` and `c` do (40_bitmetric.md R95, law 4). -/
theorem hammingDistance_triangle (a b c : Word) (w : Nat) :
    hammingDistance a c w ≤ hammingDistance a b w + hammingDistance b c w := by
  simp only [hammingDistance_eq]
  refine popcountBelow_le_add fun i _ => ?_
  simp only [BitVec.getLsbD_xor]
  exact toNat_xor_le _ _ _

/-- Flipping the bits of `m` moves a word by the number of them inside the width (40_bitmetric.md R95, law 5). -/
theorem hammingDistance_xor_self (a m : Word) (w : Nat) : hammingDistance (a ^^^ m) a w = popcount (m &&& lowMask w) := by
  rw [hammingDistance, xor_xor_cancel_comm]

/-- Settles O25: the distance is a length of a list of positions below `min w 32`. -/
theorem hammingDistanceCorners : Obligations.HammingDistanceCorners := fun a b w =>
  ⟨hammingDistance_eq_length a b w, Nat.le_zero.1 (hammingDistance_le a b 0), fun hw => hammingDistance_of_wide hw a b,
    hammingDistance_le a b w⟩

/-- Settles O26, one law after the other; law 2 needs no bound on the width. -/
theorem hammingDistanceLaws : Obligations.HammingDistanceLaws := fun a b c m w =>
  ⟨hammingDistance_eq_zero_iff.2 fun _ _ => rfl, fun _ ha hb => hammingDistance_eq_zero_iff_eq ha hb,
    hammingDistance_comm a b w, hammingDistance_triangle a b c w, hammingDistance_xor_self a m w⟩

/-! ## The commands -/

/-- The control word of HDIST (40_bitmetric.md R92). -/
theorem encodeCommand_hdist {width : Nat} (hw : width < 64) (a b : Word) :
    encodeCommand (.hdist width a b) = ⟨0x08000000 ||| (BitVec.ofNat 32 width <<< 21), a, b⟩ := by
  rw [encodeCommand, controlWord_eq_or _ _ hw (by decide) (by decide)]
  simp

/-- The control word of POPCNT (40_bitmetric.md R93). -/
theorem encodeCommand_popcnt (x : Word) : encodeCommand (.popcnt x) = ⟨0x10000000, x, 0⟩ := by
  have hcw : controlWord 0x02 0 0 0 false false = 0x10000000 := by decide
  rw [encodeCommand, hcw]

/-- Settles O23: the answer is the distance, which fits `R0`. -/
theorem hdistCountsTheDifferingBits : Obligations.HdistCountsTheDifferingBits := by
  intro width a b s hw
  have hfits : hammingDistance a b width ≤ min width 32 := hammingDistance_le a b width
  refine ⟨encodeCommand_hdist hw a b, toWord (hammingDistance a b width), answersAndKeeps_of_finish rfl, ?_⟩
  rw [toWord_toNat (by omega), hammingDistance_eq_length]

/-- Settles O24: the answer is the bit count of the data word, which fits `R0`. -/
theorem popcntCountsTheSetBits : Obligations.PopcntCountsTheSetBits := by
  intro x s
  have hfits : popcount x ≤ 32 := popcountBelow_le x 32
  refine ⟨encodeCommand_popcnt x, toWord (popcount x), answersAndKeeps_of_finish rfl, ?_⟩
  rw [toWord_toNat (by omega), popcount, popcountBelow_eq_length]

end Sys2Proof.Proofs
end

section
/-! SUPPORT. What CB_WRITE, CB_VERIFY, CB_SEAL, CB_GEN and CB_STAT execute to, one equation per branch, in the order of their
checks (41_codebook.md R102 to R108), and their control words. -/

namespace Sys2Proof.Proofs

open Sys2Proof Sys2Proof.Machine

/-! ## Operand checks that fail -/

theorem widthInRange_eq_false {w : Nat} : widthInRange w = false ↔ w < 1 ∨ 32 < w := by
  rw [← Bool.not_eq_true, widthInRange_eq_true]
  omega

theorem countInRange_eq_false {s : State} {n : Nat} : countInRange s n = false ↔ n < 1 ∨ 2 ^ s.k < n := by
  rw [← Bool.not_eq_true, countInRange_eq_true]
  omega

theorem isSymbol_eq_false {s : State} {x : Word} : isSymbol s x = false ↔ 2 ^ s.k ≤ x.toNat := by
  rw [← Bool.not_eq_true, isSymbol_eq_true, Nat.not_lt]

/-- No symbol is present exactly when none is counted (41_codebook.md R104). -/
theorem presentCount_eq_zero_iff {s : State} : presentCount s = 0 ↔ ¬ HasEntry s := by
  rw [hasEntry_iff, not_not, presentCount, List.length_eq_zero_iff]

/-! ## CB_WRITE -/

section CbWrite

variable {symbol codeword : Word} {s : State}

theorem encodeCommand_cbWrite (symbol codeword : Word) :
    encodeCommand (.cbWrite symbol codeword) = ⟨0x18000000, symbol, codeword⟩ := by
  have hcw : controlWord 0x03 0 0 0 false false = 0x18000000 := by decide
  rw [encodeCommand, hcw]

theorem exec_cbWrite_locked (hs : s.block.cbSealed = true) :
    exec (.cbWrite symbol codeword) s = raise .codebookLocked 0 s := by
  simp [exec, execCbWrite, hs]

theorem exec_cbWrite_notSymbol (hs : s.block.cbSealed = false) (ha : 2 ^ s.k ≤ symbol.toNat) :
    exec (.cbWrite symbol codeword) s = raise .invalidValueRange 0 s := by
  simp [exec, execCbWrite, hs, isSymbol_eq_false.2 ha]

theorem exec_cbWrite_stores (hs : s.block.cbSealed = false) (ha : symbol.toNat < 2 ^ s.k) :
    exec (.cbWrite symbol codeword) s = finish 0 0 (writeEntry symbol.toNat codeword s) := by
  simp [exec, execCbWrite, hs, isSymbol_eq_true.2 ha]

end CbWrite

/-! ## CB_VERIFY -/

section CbVerify

variable {w d : Nat} {s : State}

theorem encodeCommand_cbVerify (hw : w < 64) (hd : d < 64) : encodeCommand (.cbVerify w d) =
    ⟨0x20000000 ||| (BitVec.ofNat 32 w <<< 21) ||| (BitVec.ofNat 32 d <<< 15), 0, 0⟩ := by
  rw [encodeCommand, controlWord_eq_or _ _ hw hd (by decide)]
  simp

theorem exec_cbVerify_width (hw : w < 1 ∨ 32 < w) : exec (.cbVerify w d) s = raise .invalidValueRange 0 s := by
  simp [exec, execCbVerify, widthInRange_eq_false.2 hw]

theorem exec_cbVerify_tooWide {a : Nat} (hw : 1 ≤ w ∧ w ≤ 32) (hv : verify s w d = .tooWide a) :
    exec (.cbVerify w d) s = raise .invalidValueRange (toWord a) s := by
  simp [exec, execCbVerify, widthInRange_eq_true.2 hw, hv]

theorem exec_cbVerify_violation {i j : Nat} (hw : 1 ≤ w ∧ w ≤ 32) (hv : verify s w d = .violation i j) :
    exec (.cbVerify w d) s = finish (passFlag false) (pairWord i j) s := by
  simp [exec, execCbVerify, widthInRange_eq_true.2 hw, hv]

theorem exec_cbVerify_pass (hw : 1 ≤ w ∧ w ≤ 32) (hv : verify s w d = .pass) :
    exec (.cbVerify w d) s = finish (passFlag true) 0 s := by
  simp [exec, execCbVerify, widthInRange_eq_true.2 hw, hv]

end CbVerify

/-! ## CB_SEAL -/

section CbSeal

variable {w d : Nat} {s : State}

theorem encodeCommand_cbSeal (hw : w < 64) (hd : d < 64) : encodeCommand (.cbSeal w d) =
    ⟨0x28000000 ||| (BitVec.ofNat 32 w <<< 21) ||| (BitVec.ofNat 32 d <<< 15), 0, 0⟩ := by
  rw [encodeCommand, controlWord_eq_or _ _ hw hd (by decide)]
  simp

theorem exec_cbSeal_locked (hs : s.block.cbSealed = true) : exec (.cbSeal w d) s = raise .codebookLocked 0 s := by
  simp [exec, execCbSeal, hs]

theorem exec_cbSeal_width (hs : s.block.cbSealed = false) (hw : w < 1 ∨ 32 < w) :
    exec (.cbSeal w d) s = raise .invalidValueRange 0 s := by
  simp [exec, execCbSeal, hs, widthInRange_eq_false.2 hw]

theorem exec_cbSeal_empty (hs : s.block.cbSealed = false) (hw : 1 ≤ w ∧ w ≤ 32) (he : ¬ HasEntry s) :
    exec (.cbSeal w d) s = raise .invalidCodebook 0 s := by
  simp [exec, execCbSeal, hs, widthInRange_eq_true.2 hw, presentCount_eq_zero_iff.2 he]

theorem exec_cbSeal_tooWide {a : Nat} (hs : s.block.cbSealed = false) (hw : 1 ≤ w ∧ w ≤ 32) (he : HasEntry s)
    (hv : verify s w d = .tooWide a) : exec (.cbSeal w d) s = raise .invalidValueRange (toWord a) s := by
  simp [exec, execCbSeal, hs, widthInRange_eq_true.2 hw, presentCount_eq_zero_iff, he, hv]

theorem exec_cbSeal_violation {i j : Nat} (hs : s.block.cbSealed = false) (hw : 1 ≤ w ∧ w ≤ 32) (he : HasEntry s)
    (hv : verify s w d = .violation i j) : exec (.cbSeal w d) s = raise .invalidCodebook (pairWord i j) s := by
  simp [exec, execCbSeal, hs, widthInRange_eq_true.2 hw, presentCount_eq_zero_iff, he, hv]

theorem exec_cbSeal_pass (hs : s.block.cbSealed = false) (hw : 1 ≤ w ∧ w ≤ 32) (he : HasEntry s)
    (hv : verify s w d = .pass) :
    exec (.cbSeal w d) s = finish (toWord (presentCount s)) 0 (sealCodebook w d s) := by
  simp [exec, execCbSeal, hs, widthInRange_eq_true.2 hw, presentCount_eq_zero_iff, he, hv]

end CbSeal

/-! ## CB_GEN -/

section CbGen

variable {w d n : Nat} {s : State}

theorem encodeCommand_cbGen (hw : w < 64) (hd : d < 64) (hn : n < 64) : encodeCommand (.cbGen w d n) =
    ⟨0x30000000 ||| (BitVec.ofNat 32 w <<< 21) ||| (BitVec.ofNat 32 d <<< 15) ||| (BitVec.ofNat 32 n <<< 9), 0, 0⟩ := by
  rw [encodeCommand, controlWord_eq_or _ _ hw hd hn]
  simp

theorem exec_cbGen_locked (hs : s.block.cbSealed = true) : exec (.cbGen w d n) s = raise .codebookLocked 0 s := by
  simp [exec, execCbGen, hs]

theorem exec_cbGen_width (hs : s.block.cbSealed = false) (hw : w < 1 ∨ 32 < w) :
    exec (.cbGen w d n) s = raise .invalidValueRange 0 s := by
  simp [exec, execCbGen, hs, widthInRange_eq_false.2 hw]

theorem exec_cbGen_count (hs : s.block.cbSealed = false) (hw : 1 ≤ w ∧ w ≤ 32) (hn : n < 1 ∨ 2 ^ s.k < n) :
    exec (.cbGen w d n) s = raise .invalidValueRange 0 s := by
  simp [exec, execCbGen, hs, widthInRange_eq_true.2 hw, countInRange_eq_false.2 hn]

theorem exec_cbGen_exhausted (hs : s.block.cbSealed = false) (hw : 1 ≤ w ∧ w ≤ 32) (hn : 1 ≤ n ∧ n ≤ 2 ^ s.k)
    (hg : greedy n w d = none) : exec (.cbGen w d n) s = raise .codebookExhausted 0 s := by
  simp [exec, execCbGen, hs, widthInRange_eq_true.2 hw, countInRange_eq_true.2 hn, hg]

theorem exec_cbGen_found {acc : List Word} (hs : s.block.cbSealed = false) (hw : 1 ≤ w ∧ w ≤ 32)
    (hn : 1 ≤ n ∧ n ≤ 2 ^ s.k) (hg : greedy n w d = some acc) :
    exec (.cbGen w d n) s = finish (toWord n) 0 (sealCodebook w d (loadTable acc s)) := by
  simp [exec, execCbGen, hs, widthInRange_eq_true.2 hw, countInRange_eq_true.2 hn, hg]

end CbGen

/-! ## CB_STAT -/

theorem encodeCommand_cbStat : encodeCommand .cbStat = ⟨0x38000000, 0, 0⟩ := by
  have hcw : controlWord 0x07 0 0 0 false false = 0x38000000 := by decide
  rw [encodeCommand, hcw]

end Sys2Proof.Proofs
end

section
/-! SUPPORT. Who may change the codebook (41_codebook.md R100, R102, R104, R106): nobody in the sealed phase, and in the open
phase the writing commands within their frames. -/

namespace Sys2Proof.Proofs

open Sys2Proof Sys2Proof.Machine

/-- Settles O18: `exec_block_of_sealed`. -/
theorem sealedCodebookNeverChanges : Obligations.SealedCodebookNeverChanges :=
  fun _ _ _ hs h => exec_block_of_sealed hs h

theorem block_eq_of_fields {b c : Block} (hlut : b.lut = c.lut) (hsealed : b.cbSealed = c.cbSealed)
    (hwidth : b.cbWidth = c.cbWidth) (hdmin : b.cbDmin = c.cbDmin) : b = c := by
  cases b; cases c
  simp_all

/-- Only CB_WRITE and CB_GEN change the table (20_memory.md R42). -/
theorem exec_lut_of_ne {i : Instr} {s t : State} (h : exec i s = .next t) (hwrite : ∀ a v, i ≠ .cbWrite a v)
    (hgen : ∀ w d n, i ≠ .cbGen w d n) : t.block.lut = s.block.lut := by
  by_contra hne
  obtain ⟨hlut, -, -⟩ := whoWritesWhichState i s t h
  rcases hlut hne with ⟨a, v, hi⟩ | ⟨w, d, n, hi⟩
  · exact hwrite a v hi
  · exact hgen w d n hi

/-- Only CB_SEAL and CB_GEN change the control fields (10_state.md R24). -/
theorem exec_control_of_ne {i : Instr} {s t : State} (h : exec i s = .next t) (hseal : ∀ w d, i ≠ .cbSeal w d)
    (hgen : ∀ w d n, i ≠ .cbGen w d n) :
    t.block.cbSealed = s.block.cbSealed ∧ t.block.cbWidth = s.block.cbWidth ∧ t.block.cbDmin = s.block.cbDmin := by
  by_contra hne
  obtain ⟨-, hcontrol, -⟩ := whoWritesWhichState i s t h
  rcases hcontrol (by tauto) with ⟨w, d, hi⟩ | ⟨w, d, n, hi⟩
  · exact hseal w d hi
  · exact hgen w d n hi

/-- Only CORRUPT changes the random source (43_channel.md R132). -/
theorem exec_source_of_ne {i : Instr} {s t : State} (h : exec i s = .next t)
    (hcorrupt : ∀ w b m mode x, i ≠ .corrupt w b m mode x) : t.source = s.source := by
  by_contra hne
  obtain ⟨-, -, hsource⟩ := whoWritesWhichState i s t h
  obtain ⟨w, b, m, mode, x, hi⟩ := hsource hne
  exact hcorrupt w b m mode x hi

/-- Whatever CB_WRITE answers, only the entry of its symbol may change (41_codebook.md R102). -/
theorem exec_cbWrite_other {a v : Word} {s t : State} (h : exec (.cbWrite a v) s = .next t) {b : Nat}
    (hb : b ≠ a.toNat) : memRead t.block.lut b = memRead s.block.lut b := by
  cases hs : s.block.cbSealed with
  | true => rw [exec_block_of_sealed hs h]
  | false =>
    rcases Nat.lt_or_ge a.toNat (2 ^ s.k) with ha | ha
    · rw [exec_cbWrite_stores hs ha, finish_eq_next] at h; subst h
      exact memRead_memWrite_other _ v hb
    · rw [exec_cbWrite_notSymbol hs ha, raise_eq_next] at h; subst h
      rfl

/-- Settles O57: each command is none of those that O20 names for the parts it leaves alone. -/
theorem writingCommandsLeaveTheRestAlone : Obligations.WritingCommandsLeaveTheRestAlone := by
  intro s t
  refine ⟨fun a v h => ?_, fun w d h => ?_, fun w d n h => ?_, fun w b m mode x h => ?_⟩
  · obtain ⟨hsealed, hwidth, hdmin⟩ := exec_control_of_ne h (by simp) (by simp)
    exact ⟨fun b hb => exec_cbWrite_other h hb, hsealed, hwidth, hdmin, exec_source_of_ne h (by simp), exec_program_k h⟩
  · exact ⟨fun b => by rw [exec_lut_of_ne h (by simp) (by simp)], exec_source_of_ne h (by simp), exec_program_k h⟩
  · exact ⟨exec_source_of_ne h (by simp), exec_program_k h⟩
  · obtain ⟨hsealed, hwidth, hdmin⟩ := exec_control_of_ne h (by simp) (by simp)
    exact ⟨block_eq_of_fields (exec_lut_of_ne h (by simp) (by simp)) hsealed hwidth hdmin, exec_program_k h⟩

/-- Settles O27, one branch of CB_WRITE after the other. -/
theorem cbWriteStoresOneRow : Obligations.CbWriteStoresOneRow := by
  intro symbol codeword s
  refine ⟨encodeCommand_cbWrite symbol codeword, fun hs ha => ?_, fun hs => fails_of_raise (exec_cbWrite_locked hs),
    fun hs ha => fails_of_raise (exec_cbWrite_notSymbol hs ha)⟩
  exact ⟨respond .ok 0 0 (writeEntry symbol.toNat codeword s), exec_cbWrite_stores hs ha, by simp [Answered], by simp,
    by simp [isPresent], fun b hb => by simp [memRead_memWrite_other _ _ hb], rfl, rfl, rfl, rfl⟩

end Sys2Proof.Proofs
end

section
/-! SUPPORT. Verification over the current table (41_codebook.md R101): the outcome found is the first defect in the rule's
order, and there is only one such outcome; what CB_VERIFY and CB_SEAL answer from it (R103, R104). -/

namespace Sys2Proof.Proofs

open Sys2Proof Sys2Proof.Machine

/-! ## The present entries -/

theorem holds_iff_mem_codebook {s : State} {a : Nat} {v : Word} : Holds s a v ↔ (a, v) ∈ codebook s :=
  mem_codebook.symm

theorem holds_unique {s : State} {a : Nat} {u v : Word} (hu : Holds s a u) (hv : Holds s a v) : u = v :=
  Option.some.inj (hu.2.symm.trans hv.2)

/-- In a list of ascending symbols, an entry with a symbol below that of `e` stands before `e`. -/
theorem mem_before_of_lt {before after : List (Nat × Word)} {e f : Nat × Word}
    (hsorted : (before ++ e :: after).Pairwise fun e f => e.1 < f.1) (hf : f ∈ before ++ e :: after) (hlt : f.1 < e.1) :
    f ∈ before := by
  obtain ⟨-, hafter, -⟩ := List.pairwise_append.1 hsorted
  rcases List.mem_append.1 hf with hf | hf
  · exact hf
  · rcases List.mem_cons.1 hf with rfl | hf
    · omega
    · have := List.rel_of_pairwise_cons hafter hf
      omega

/-- In such a list, an entry with a symbol above that of `e` stands after `e`. -/
theorem mem_after_of_lt {before after : List (Nat × Word)} {e f : Nat × Word}
    (hsorted : (before ++ e :: after).Pairwise fun e f => e.1 < f.1) (hf : f ∈ before ++ e :: after) (hlt : e.1 < f.1) :
    f ∈ after := by
  obtain ⟨-, -, hbefore⟩ := List.pairwise_append.1 hsorted
  rcases List.mem_append.1 hf with hf | hf
  · have := hbefore f hf e (List.mem_cons_self ..)
    omega
  · rcases List.mem_cons.1 hf with rfl | hf
    · omega
    · exact hf

/-- Entries far from each other in one order of the list are so in the other. -/
theorem far_of_mem {l : List (Nat × Word)} {w d a b : Nat} {u v : Word}
    (h : l.Pairwise fun e f => d ≤ hammingDistance e.2 f.2 w) (hu : (a, u) ∈ l) (hv : (b, v) ∈ l) (hlt : a < b) :
    d ≤ hammingDistance u v w := by
  have : Std.Symm fun e f : Nat × Word => d ≤ hammingDistance e.2 f.2 w :=
    ⟨fun e f hef => by rwa [hammingDistance_comm]⟩
  have hpair := h.forall hu hv
  exact hpair fun heq => hlt.ne (congrArg Prod.fst heq)

/-! ## The first defect -/

/-- Every present entry fits `w` bits. -/
def AllFit (s : State) (w : Nat) : Prop := ∀ b u, Holds s b u → u.toNat < 2 ^ w

/-- The outcome names the first defect of the table in the order of 41_codebook.md R101, or says that there is none. -/
def FirstDefect (s : State) (w d : Nat) : VerifyOutcome → Prop
  | .tooWide a => ∃ v, Holds s a v ∧ 2 ^ w ≤ v.toNat ∧ ∀ b u, Holds s b u → b < a → u.toNat < 2 ^ w
  | .violation i j => AllFit s w ∧ i < j ∧ (∃ u v, Holds s i u ∧ Holds s j v ∧ hammingDistance u v w < d) ∧
      ∀ i' j' u v, Holds s i' u → Holds s j' v → i' < j' → (i' < i ∨ i' = i ∧ j' < j) → d ≤ hammingDistance u v w
  | .pass => AllFit s w ∧ ∀ i j u v, Holds s i u → Holds s j v → i < j → d ≤ hammingDistance u v w

/-- No entry is too wide when all fit. -/
theorem not_allFit_of_tooWide {s : State} {w d a : Nat} (h : FirstDefect s w d (.tooWide a)) : ¬ AllFit s w := by
  obtain ⟨v, hv, hwide, -⟩ := h
  exact fun hfit => absurd (hfit a v hv) (Nat.not_lt.2 hwide)

/-- No pair is too near when all are far. -/
theorem not_pass_of_violation {s : State} {w d i j : Nat} (h : FirstDefect s w d (.violation i j)) :
    ¬ FirstDefect s w d .pass := by
  obtain ⟨-, hij, ⟨u, v, hu, hv, hnear⟩, -⟩ := h
  exact fun ⟨_, hfar⟩ => absurd (hfar i j u v hu hv hij) (Nat.not_le.2 hnear)

/-- The first too wide entry is not above another. -/
theorem tooWide_le {s : State} {w d a b : Nat} (ha : FirstDefect s w d (.tooWide a))
    (hb : FirstDefect s w d (.tooWide b)) : a ≤ b := by
  obtain ⟨v, hv, hwide, -⟩ := hb
  obtain ⟨-, -, -, hfirst⟩ := ha
  by_contra hlt
  exact absurd (hfirst b v hv (by omega)) (Nat.not_lt.2 hwide)

/-- The first violating pair is not after another. -/
theorem violation_le {s : State} {w d i j i' j' : Nat} (h : FirstDefect s w d (.violation i j))
    (h' : FirstDefect s w d (.violation i' j')) : ¬ (i' < i ∨ i' = i ∧ j' < j) := by
  obtain ⟨-, hij, ⟨u, v, hu, hv, hnear⟩, -⟩ := h'
  obtain ⟨-, -, -, hfirst⟩ := h
  exact fun hlt => absurd (hfirst i' j' u v hu hv hij hlt) (Nat.not_le.2 hnear)

/-- There is one first defect only. -/
theorem firstDefect_unique {s : State} {w d : Nat} : ∀ {o o' : VerifyOutcome}, FirstDefect s w d o →
    FirstDefect s w d o' → o = o'
  | .tooWide a, .tooWide b, h, h' => by rw [Nat.le_antisymm (tooWide_le h h') (tooWide_le h' h)]
  | .tooWide _, .violation _ _, h, h' => absurd h'.1 (not_allFit_of_tooWide h)
  | .tooWide _, .pass, h, h' => absurd h'.1 (not_allFit_of_tooWide h)
  | .violation _ _, .tooWide _, h, h' => absurd h.1 (not_allFit_of_tooWide h')
  | .violation i j, .violation i' j', h, h' => by
    have hle := violation_le h h'
    have hge := violation_le h' h
    obtain ⟨rfl, rfl⟩ : i = i' ∧ j = j' := by omega
    rfl
  | .violation _ _, .pass, h, h' => absurd h' (not_pass_of_violation h)
  | .pass, .tooWide _, h, h' => absurd h.1 (not_allFit_of_tooWide h')
  | .pass, .violation _ _, h, h' => absurd h (not_pass_of_violation h')
  | .pass, .pass, _, _ => rfl

/-! ## What Verify finds -/

theorem fitsBits_eq_false {n : Nat} {x : Word} : fitsBits n x = false ↔ 2 ^ n ≤ x.toNat := by
  rw [← Bool.not_eq_true, fitsBits_eq_true, Nat.not_lt]

/-- The first loop of Verify stops at the lowest present symbol whose entry does not fit (41_codebook.md R101). -/
theorem firstDefect_of_find_wide {s : State} {w d : Nat} {e : Nat × Word}
    (h : (codebook s).find? (fun e => !fitsBits w e.2) = some e) : FirstDefect s w d (.tooWide e.1) := by
  obtain ⟨hwide, before, after, hsplit, hbefore⟩ := List.find?_eq_some_iff_append.1 h
  have hsorted := codebook_sorted s
  rw [hsplit] at hsorted
  have hholds : Holds s e.1 e.2 := holds_iff_mem_codebook.2 (by simp [hsplit])
  refine ⟨e.2, hholds, fitsBits_eq_false.1 (by simpa using hwide), fun b u hu hlt => ?_⟩
  rw [holds_iff_mem_codebook, hsplit] at hu
  simpa using hbefore _ (mem_before_of_lt hsorted hu hlt)

/-- The second loop of Verify stops at the first pair that is too near (41_codebook.md R101). -/
theorem firstDefect_of_firstViolation {s : State} {w d i j : Nat} (hfit : AllFit s w)
    (h : firstViolation w d (codebook s) = some (i, j)) : FirstDefect s w d (.violation i j) := by
  obtain ⟨before, ci, between, cj, after, hsplit, hnear, hbetween, hfar, hcross⟩ := firstViolation_eq_some h
  have hmem : ∀ {b u}, Holds s b u ↔ (b, u) ∈ before ++ (i, ci) :: (between ++ (j, cj) :: after) := by
    simp only [holds_iff_mem_codebook, hsplit, implies_true]
  have hci : Holds s i ci := hmem.2 (by simp)
  have hcj : Holds s j cj := hmem.2 (by simp)
  have hsorted := codebook_sorted s
  rw [hsplit] at hsorted
  obtain ⟨-, htail, -⟩ := List.pairwise_append.1 hsorted
  have hij : i < j := List.rel_of_pairwise_cons htail (a' := (j, cj)) (by simp)
  refine ⟨hfit, hij, ⟨ci, cj, hci, hcj, hnear⟩, fun i' j' u v hu hv hlt hfirst => ?_⟩
  rcases hfirst with hi' | ⟨rfl, hj'⟩
  · have hbefore := mem_before_of_lt hsorted (hmem.1 hu) hi'
    rcases List.mem_append.1 (hmem.1 hv) with hv | hv
    · exact far_of_mem hfar hbefore hv hlt
    · exact hcross (i', u) hbefore (j', v) hv
  · obtain rfl := holds_unique hci hu
    exact hbetween (j', v) (mem_before_of_lt htail.of_cons (mem_after_of_lt hsorted (hmem.1 hv) hlt) hj')

/-- Verify names the first defect, whichever of its loops stops (41_codebook.md R101). -/
theorem verify_firstDefect (s : State) (w d : Nat) : FirstDefect s w d (verify s w d) := by
  unfold verify verifyEntries
  cases hwide : (codebook s).find? (fun e => !fitsBits w e.2) with
  | some e => exact firstDefect_of_find_wide hwide
  | none =>
    have hfit : AllFit s w := fun b u hu => by
      simpa using List.find?_eq_none.1 hwide _ (holds_iff_mem_codebook.1 hu)
    cases hnear : firstViolation w d (codebook s) with
    | some p => exact firstDefect_of_firstViolation hfit hnear
    | none =>
      have hfar := firstViolation_eq_none.1 hnear
      exact ⟨hfit, fun i j u v hu hv hij => far_of_mem hfar (holds_iff_mem_codebook.1 hu) (holds_iff_mem_codebook.1 hv)
        hij⟩

/-- Verify returns the outcome that names the first defect (41_codebook.md R101). -/
theorem verify_eq_iff {s : State} {w d : Nat} {o : VerifyOutcome} : verify s w d = o ↔ FirstDefect s w d o :=
  ⟨fun h => h ▸ verify_firstDefect s w d, fun h => firstDefect_unique (verify_firstDefect s w d) h⟩

/-- Settles O28: `verify_eq_iff` for each of the outcomes. -/
theorem verifyFindsTheFirstDefect : Obligations.VerifyFindsTheFirstDefect :=
  fun _ _ _ => ⟨fun _ => verify_eq_iff, fun _ _ => verify_eq_iff, verify_eq_iff⟩

/-! ## The commands -/

/-- A symbol fits five bits, since K is at most 5 (00_scope.md R6). -/
theorem lt_of_holds {s : State} {a : Nat} {v : Word} (hk : s.KOk) (h : Holds s a v) : a < 32 :=
  h.1.trans_le (Nat.pow_le_pow_right (by decide) hk.2)

/-- A pair of symbols is read back as two bytes (30_encoding.md R74). -/
theorem pairWord_toNat {i j : Nat} (hi : i < 32) (hj : j < 32) : (pairWord i j).toNat = i * 256 + j := by
  have hor : i <<< 8 ||| j = i * 256 + j := by
    rw [← Nat.shiftLeft_add_eq_or_of_lt (show j < 2 ^ 8 by omega), Nat.shiftLeft_eq]
  rw [pairWord, hor, toWord_toNat (by omega)]

/-- The pair that Verify finds is read back from its word. -/
theorem pairWord_toNat_of_violation {s : State} {w d i j : Nat} (hk : s.KOk) (hv : verify s w d = .violation i j) :
    (pairWord i j).toNat = i * 256 + j := by
  obtain ⟨-, -, ⟨u, v, hu, hv, -⟩, -⟩ := verify_eq_iff.1 hv
  exact pairWord_toNat (lt_of_holds hk hu) (lt_of_holds hk hv)

/-- The number of present entries, over the symbols below `2^K` (41_codebook.md R104, R108). -/
theorem presentCount_eq_length (s : State) :
    presentCount s = ((List.range (2 ^ s.k)).filter fun a => isPresent s a).length := by
  simp only [presentCount, codebook, List.length_filterMap_eq_countP, List.countP_eq_length_filter, Option.isSome_map,
    isPresent, symbolCount]

/-- At most 32 entries are present, since K is at most 5 (00_scope.md R6). -/
theorem presentCount_le_of_kOk {s : State} (hk : s.KOk) : presentCount s ≤ 32 :=
  (presentCount_le s).trans (Nat.pow_le_pow_right (by decide) hk.2)

/-- Settles O29, one branch of CB_VERIFY after the other. -/
theorem cbVerifyReportsTheVerification : Obligations.CbVerifyReportsTheVerification := by
  intro w d s hw hd hk
  refine ⟨encodeCommand_cbVerify hw hd, fun hwidth => fails_of_raise (exec_cbVerify_width hwidth), fun h1 h32 =>
    ⟨?_, ?_, ?_⟩⟩
  · exact fun a hv => fails_of_raise (exec_cbVerify_tooWide ⟨h1, h32⟩ hv)
  · exact fun i j hv => ⟨pairWord i j, answersAndKeeps_of_finish (exec_cbVerify_violation ⟨h1, h32⟩ hv),
      pairWord_toNat_of_violation hk hv⟩
  · exact fun hv => answersAndKeeps_of_finish (exec_cbVerify_pass ⟨h1, h32⟩ hv)

/-- Settles O30, one branch of CB_SEAL after the other. -/
theorem cbSealVerifiesAndFreezes : Obligations.CbSealVerifiesAndFreezes := by
  intro w d s hw hd hk
  refine ⟨encodeCommand_cbSeal hw hd, fun hs => fails_of_raise (exec_cbSeal_locked hs), fun hs =>
    ⟨fun hwidth => fails_of_raise (exec_cbSeal_width hs hwidth), fun h1 h32 =>
      ⟨fun he => fails_of_raise (exec_cbSeal_empty hs ⟨h1, h32⟩ he), fun he => ⟨?_, ?_, ?_⟩⟩⟩⟩
  · exact fun a hv => fails_of_raise (exec_cbSeal_tooWide hs ⟨h1, h32⟩ he hv)
  · exact fun i j hv => ⟨pairWord i j, fails_of_raise (exec_cbSeal_violation hs ⟨h1, h32⟩ he hv),
      pairWord_toNat_of_violation hk hv⟩
  · intro hv
    have hcount : (toWord (presentCount s)).toNat = presentCount s :=
      toWord_toNat ((presentCount_le_of_kOk hk).trans_lt (by decide))
    exact ⟨respond .ok (toWord (presentCount s)) 0 (sealCodebook w d s), toWord (presentCount s),
      exec_cbSeal_pass hs ⟨h1, h32⟩ he hv, by simp [Answered], hcount.trans (presentCount_eq_length s), rfl,
      by simpa using hw, by simpa using hd, rfl, rfl⟩

end Sys2Proof.Proofs
end

section
/-! SUPPORT. The greedy search (41_codebook.md R105) and CB_GEN (R106, R107): what the codewords found are, how searches for
fewer and for more of them agree, and the table that an OK CB_GEN leaves. -/

namespace Sys2Proof.Proofs

open Sys2Proof Sys2Proof.Machine

/-! ## The search -/

/-- Settles O31: `greedy_spec`, whose bound on the candidates is past the last accepted codeword, or the whole space. -/
theorem greedyAcceptsExactlyTheFarCandidates : Obligations.GreedyAcceptsExactlyTheFarCandidates := by
  intro n w d hn hw
  obtain ⟨hfound, hexhausted⟩ := greedy_spec (d := d) hn hw
  constructor
  · intro acc hacc
    obtain ⟨e, he, hlen, hinv, -⟩ := hfound acc hacc
    refine ⟨hlen, hinv.ascending, fun a ha => (hinv.below a ha).trans_le he, hinv.far, ?_⟩
    rintro c ⟨b, hb, hcb⟩ hc
    exact hinv.maximal c (hcb.trans (hinv.below b hb)) hc
  · intro hnone
    obtain ⟨acc, hlen, hinv⟩ := hexhausted hnone
    exact ⟨acc, hlen, hinv.ascending, hinv.below, hinv.far, hinv.maximal⟩

/-- The codewords accepted so far are the first of those found. -/
theorem greedyFrom_prefix {n w d fuel c : Nat} {acc res : List Word} (h : greedyFrom n w d fuel c acc = some res) :
    acc <+: res := by
  induction fuel generalizing c acc with
  | zero => simp [greedyFrom] at h
  | succ fuel ih =>
    simp only [greedyFrom] at h
    split at h
    · have happend : acc <+: acc ++ [toWord c] := List.prefix_append ..
      split at h
      · exact Option.some.inj h ▸ happend
      · exact happend.trans (ih h)
    · exact ih h

/-- A search for fewer codewords passes the same candidates and stops earlier (41_codebook.md R107, item 3). -/
theorem greedyFrom_take {n n' w d fuel c : Nat} {acc res : List Word} (hlen : acc.length < n) (hn : n ≤ n')
    (h : greedyFrom n' w d fuel c acc = some res) : greedyFrom n w d fuel c acc = some (res.take n) := by
  induction fuel generalizing c acc with
  | zero => simp [greedyFrom] at h
  | succ fuel ih =>
    have hlen' : (acc ++ [toWord c]).length = acc.length + 1 := by simp
    simp only [greedyFrom] at h ⊢
    split at h
    next haccept =>
      rw [if_pos haccept]
      have hprefix : acc ++ [toWord c] <+: res := by
        split at h
        · exact Option.some.inj h ▸ List.prefix_rfl
        · exact greedyFrom_prefix h
      split
      next hstop => rw [← hstop, ← hlen', ← List.prefix_iff_eq_take.1 hprefix]
      next hmore =>
        rw [if_neg (by omega)] at h
        exact ih (by omega) h
    next hrefuse =>
      rw [if_neg hrefuse]
      exact ih hlen h

/-- Settles O35: `greedyFrom_take` from the start of the search. -/
theorem greedyPrefixProperty : Obligations.GreedyPrefixProperty :=
  fun _ _ _ _ _ hn hle h => greedyFrom_take hn hle h

/-! ## CB_GEN -/

/-- Settles O32, one branch of CB_GEN after the other. -/
theorem cbGenBuildsAndFreezes : Obligations.CbGenBuildsAndFreezes := by
  intro w d n s hw hd hn
  refine ⟨encodeCommand_cbGen hw hd hn, fun hs => fails_of_raise (exec_cbGen_locked hs), fun hs =>
    ⟨fun hwidth => fails_of_raise (exec_cbGen_width hs hwidth), fun h1 h32 =>
      ⟨fun hcount => fails_of_raise (exec_cbGen_count hs ⟨h1, h32⟩ hcount), fun hn1 hnk => ⟨?_, ?_⟩⟩⟩⟩
  · exact fun hg => fails_of_raise (exec_cbGen_exhausted hs ⟨h1, h32⟩ ⟨hn1, hnk⟩ hg)
  · intro acc hg
    obtain ⟨hfound, -⟩ := greedy_spec (d := d) hn1 h32
    obtain ⟨-, -, hlen, -⟩ := hfound acc hg
    exact ⟨respond .ok (toWord n) 0 (sealCodebook w d (loadTable acc s)),
      exec_cbGen_found hs ⟨h1, h32⟩ ⟨hn1, hnk⟩ hg, by simp [Answered, toWord], by simp,
      fun a => Bool.eq_iff_iff.2 (by simp [isPresent, hlen]), rfl, by simpa using hw, by simpa using hd, rfl⟩

/-- An OK CB_GEN found its codewords in range and loaded and sealed them (41_codebook.md R106). -/
theorem cbGen_of_ok {w d n : Nat} {s t : State} {r0 r1 : Word} (h : exec (.cbGen w d n) s = .next t)
    (hok : Answered s t .ok r0 r1) : (1 ≤ w ∧ w ≤ 32) ∧ (1 ≤ n ∧ n ≤ 2 ^ s.k) ∧ ∃ acc, greedy n w d = some acc ∧
      t = respond .ok (toWord n) 0 (sealCodebook w d (loadTable acc s)) := by
  cases exec_shape (.cbGen w d n) s with
  | fail e info hx =>
    rw [hx, raise_eq_next] at h; subst h
    simp [Answered] at hok
  | keep r0 r1 hx h1 h2 h3 => exact absurd rfl (h3 w d n)
  | gens w' d' n' acc hi hs hw hn hg hx =>
    cases hi
    rw [hx, finish_eq_next] at h
    exact ⟨hw, hn, acc, hg, h.symm⟩
  | write a v hi => cases hi
  | seals w d hi => cases hi
  | corrupts w b m mode x hi => cases hi
  | stop r hi => cases hi

/-- Settles O33: loading and sealing overwrites every field of the block. -/
theorem generationIsDeterministic : Obligations.GenerationIsDeterministic := by
  rintro w d n s s' t t' h h' ⟨r0, hok⟩ ⟨r0', hok'⟩
  obtain ⟨-, -, acc, hg, rfl⟩ := cbGen_of_ok h hok
  obtain ⟨-, -, acc', hg', rfl⟩ := cbGen_of_ok h' hok'
  obtain rfl : acc = acc' := Option.some.inj (hg.symm.trans hg')
  rfl

/-- Settles O34: the codewords found are below `2^w` and far from each other, so the table has no defect. -/
theorem generatedCodebookPassesItsVerification : Obligations.GeneratedCodebookPassesItsVerification := by
  intro w d n s t r0 h hok
  obtain ⟨hw, hn, acc, hg, rfl⟩ := cbGen_of_ok h hok
  obtain ⟨hfound, -⟩ := greedy_spec (d := d) hn.1 hw.2
  obtain ⟨e, he, -, hinv, -⟩ := hfound acc hg
  have hread : ∀ {a v}, Holds (respond .ok (toWord n) 0 (sealCodebook w d (loadTable acc s))) a v → acc[a]? = some v :=
    fun hv => by simpa using hv.2
  refine verify_eq_iff.2 ⟨fun b u hu => ?_, fun i j u v hu hv hij => ?_⟩
  · exact (hinv.below u (List.mem_of_getElem? (hread hu))).trans_le he
  · exact far_of_pairwise hinv.far (hread hu) (hread hv) hij.ne

end Sys2Proof.Proofs
end

section
/-! SUPPORT. The two result words of CB_STAT (41_codebook.md R108), field by field and bit by bit. -/

namespace Sys2Proof.Proofs

open Sys2Proof Sys2Proof.Machine

/-- `R0` of CB_STAT as its fields, the unused bits 0: the count, the distance, the width, the phase (41_codebook.md R108; 90
C8). -/
theorem statWord_eq_append {n : Nat} (hn : n < 64) (blk : Block) :
    statWord n blk = 0#2 ++ BitVec.ofNat 6 n ++ 0#2 ++ blk.cbDmin ++ 0#2 ++ blk.cbWidth ++ 0#7 ++
      BitVec.ofBool blk.cbSealed := by
  have hphase : (if blk.cbSealed then 1 else 0 : Word) = (BitVec.ofBool blk.cbSealed).setWidth 32 := by
    cases blk.cbSealed <;> rfl
  have hcount : ∀ j, 6 ≤ j → n.testBit j = false := fun j hj =>
    Nat.testBit_lt_two_pow (hn.trans_le (Nat.pow_le_pow_right (n := 2) (by decide) hj))
  rw [statWord, hphase]
  apply BitVec.eq_of_getLsbD_eq
  intro i hi
  simp only [toWord, BitVec.getLsbD_or, BitVec.getLsbD_shiftLeft, BitVec.getLsbD_setWidth, BitVec.getLsbD_ofNat,
    BitVec.getLsbD_append, BitVec.getLsbD_ofBool]
  interval_cases i <;> simp [hcount]

theorem toNat_append_eq_add {m n : Nat} (x : BitVec m) (y : BitVec n) :
    (x ++ y).toNat = x.toNat * 2 ^ n + y.toNat := by
  rw [BitVec.toNat_append, ← Nat.shiftLeft_add_eq_or_of_lt y.isLt, Nat.shiftLeft_eq]

theorem extractLsb'_eq_iff {x : Word} {i n : Nat} {y : BitVec n} :
    x.extractLsb' i n = y ↔ x.toNat / 2 ^ i % 2 ^ n = y.toNat := by
  rw [BitVec.toNat_eq, BitVec.extractLsb'_toNat, Nat.shiftRight_eq_div_pow]

/-- `R0` of CB_STAT as a sum: each field fits below the next one (41_codebook.md R108). -/
theorem statWord_toNat {n : Nat} (hn : n < 64) (blk : Block) :
    (statWord n blk).toNat =
      n * 2 ^ 24 + blk.cbDmin.toNat * 2 ^ 16 + blk.cbWidth.toNat * 2 ^ 8 + blk.cbSealed.toNat := by
  rw [statWord_eq_append hn]
  simp only [toNat_append_eq_add, BitVec.toNat_ofNat, BitVec.toNat_ofBool]
  omega

theorem statWord_getLsbD_zero {n : Nat} (hn : n < 64) (blk : Block) : (statWord n blk).getLsbD 0 = blk.cbSealed := by
  rw [statWord_eq_append hn, BitVec.getLsbD_append]
  simp

/-- The fields of `R0` of CB_STAT and the bits between them (41_codebook.md R108). -/
theorem statWord_fields {n : Nat} (hn : n < 64) (blk : Block) :
    (statWord n blk).extractLsb' 8 6 = blk.cbWidth ∧ (statWord n blk).extractLsb' 16 6 = blk.cbDmin ∧
      ((statWord n blk).extractLsb' 24 6).toNat = n ∧ (statWord n blk).extractLsb' 1 7 = 0 ∧
      (statWord n blk).extractLsb' 14 2 = 0 ∧ (statWord n blk).extractLsb' 22 2 = 0 ∧
      (statWord n blk).extractLsb' 30 2 = 0 := by
  have hdmin : blk.cbDmin.toNat < 2 ^ 6 := blk.cbDmin.isLt
  have hwidth : blk.cbWidth.toNat < 2 ^ 6 := blk.cbWidth.isLt
  have hphase := blk.cbSealed.toNat_lt
  simp only [extractLsb'_eq_iff, BitVec.extractLsb'_toNat, Nat.shiftRight_eq_div_pow, statWord_toNat hn,
    BitVec.ofNat_eq_ofNat, BitVec.toNat_ofNat]
  omega

/-- The mask gets the bits of the symbols listed (41_codebook.md R108). -/
theorem foldl_mask_getLsbD (l : List (Nat × Word)) (m : Word) {i : Nat} (hi : i < 32) :
    (l.foldl (fun m e => m ||| (1#32 <<< e.1)) m).getLsbD i = (m.getLsbD i || l.any fun e => e.1 == i) := by
  induction l generalizing m with
  | nil => simp
  | cons e rest ih =>
    rw [List.foldl_cons, ih, List.any_cons, BitVec.getLsbD_or, one_shiftLeft_getLsbD, Bool.or_assoc]
    simp [hi, beq_eq_decide, eq_comm]

/-- A symbol is listed exactly when it is below `2^K` and present (10_state.md R25). -/
theorem codebook_any_symbol (s : State) (a : Nat) :
    ((codebook s).any fun e => e.1 == a) = (decide (a < 2 ^ s.k) && isPresent s a) := by
  rw [Bool.eq_iff_iff]
  simp [isPresent, Option.isSome_iff_exists, symbolCount]

/-- Bit `a` of the mask is the present bit of symbol `a` (41_codebook.md R108). -/
theorem presentMask_getLsbD {s : State} (hk : s.KOk) (a : Nat) :
    (presentMask s).getLsbD a = (decide (a < 2 ^ s.k) && isPresent s a) := by
  rcases Nat.lt_or_ge a 32 with ha | ha
  · rw [presentMask, foldl_mask_getLsbD _ _ ha, codebook_any_symbol]
    simp
  · have hspace : 2 ^ s.k ≤ 32 := Nat.pow_le_pow_right (n := 2) (by decide) hk.2
    rw [BitVec.getLsbD_of_ge _ _ ha, decide_eq_false (by omega), Bool.false_and]

/-- Settles O36: the fields of `statWord` taken apart, and the bits of the mask. -/
theorem cbStatReportsTheControlFields : Obligations.CbStatReportsTheControlFields := by
  intro s hk
  have hcount : presentCount s < 64 := (presentCount_le_of_kOk hk).trans_lt (by decide)
  refine ⟨encodeCommand_cbStat, statWord (presentCount s) s.block, presentMask s, answersAndKeeps_of_finish rfl, ?_⟩
  obtain ⟨hwidth, hdmin, hn, h1, h14, h22, h30⟩ := statWord_fields hcount s.block
  exact ⟨statWord_getLsbD_zero hcount s.block, hwidth, hdmin, hn.trans (presentCount_eq_length s), h1, h14, h22, h30,
    presentMask_getLsbD hk⟩

end Sys2Proof.Proofs
end

section
/-! SUPPORT. What ENCODE and DECODE execute to, one equation per branch, in the order of their checks (42_codec.md R120, R122),
and their control words. -/

namespace Sys2Proof.Proofs

open Sys2Proof Sys2Proof.Machine

/-! ## ENCODE -/

section Encode

variable {symbol codeword : Word} {s : State}

theorem encodeCommand_encode (symbol : Word) : encodeCommand (.encode symbol) = ⟨0x40000000, symbol, 0⟩ := by
  have hcw : controlWord 0x08 0 0 0 false false = 0x40000000 := by decide
  rw [encodeCommand, hcw]

theorem exec_encode_notReady (hs : s.block.cbSealed = false) :
    exec (.encode symbol) s = raise .codebookNotReady 0 s := by
  simp [exec, execEncode, hs]

theorem exec_encode_notSymbol (hs : s.block.cbSealed = true) (ha : 2 ^ s.k ≤ symbol.toNat) :
    exec (.encode symbol) s = raise .unknownSymbol 0 s := by
  simp [exec, execEncode, hs, isSymbol_eq_false.2 ha]

/-- Without a present entry both checks of R120 end in UnknownSymbol, whether the symbol fits K bits or not. -/
theorem exec_encode_absent (hs : s.block.cbSealed = true) (ha : isPresent s symbol.toNat = false) :
    exec (.encode symbol) s = raise .unknownSymbol 0 s := by
  have hread : memRead s.block.lut symbol.toNat = none := by simpa [isPresent] using ha
  simp [exec, execEncode, hs, hread]

theorem exec_encode_holds (hs : s.block.cbSealed = true) (ha : Holds s symbol.toNat codeword) :
    exec (.encode symbol) s = finish codeword 0 s := by
  obtain ⟨hsymbol, hread⟩ := ha
  simp [exec, execEncode, hs, isSymbol_eq_true.2 hsymbol, hread]

end Encode

/-! ## DECODE -/

section Decode

variable {r : Word} {s : State}

theorem encodeCommand_decode (r : Word) : encodeCommand (.decode r) = ⟨0x48000000, r, 0⟩ := by
  have hcw : controlWord 0x09 0 0 0 false false = 0x48000000 := by decide
  rw [encodeCommand, hcw]

theorem exec_decode_notReady (hs : s.block.cbSealed = false) :
    exec (.decode r) s = raise .codebookNotReady 0 s := by
  simp [exec, execDecode, hs]

theorem exec_decode_tooWide (hs : s.block.cbSealed = true) (hr : 2 ^ s.block.cbWidth.toNat ≤ r.toNat) :
    exec (.decode r) s = raise .invalidValueRange 0 s := by
  simp [exec, execDecode, hs, fitsBits_eq_false.2 hr]

/-- The one path to a fault (LOG 9). -/
theorem exec_decode_empty (hs : s.block.cbSealed = true) (hr : r.toNat < 2 ^ s.block.cbWidth.toNat)
    (he : ¬ HasEntry s) : exec (.decode r) s = .fault .nearestOfEmptyCodebook := by
  have hnone : nearest s r = none := nearest_eq_none.2 (not_not.1 (mt (hasEntry_iff s).2 he))
  simp [exec, execDecode, hs, fitsBits_eq_true.2 hr, hnone]

theorem exec_decode_nearest {a d : Nat} (hs : s.block.cbSealed = true) (hr : r.toNat < 2 ^ s.block.cbWidth.toNat)
    (hn : nearest s r = some (a, d)) : exec (.decode r) s = finish (toWord a) (toWord d) s := by
  simp [exec, execDecode, hs, fitsBits_eq_true.2 hr, hn]

end Decode

end Sys2Proof.Proofs
end

section
/-! SUPPORT. ENCODE and DECODE over the table (42_codec.md): the answers of R120 and R122, the one fault (R121, LOG 9), and the
symbol that `Nearest` finds below half the minimum distance (R123, R124). -/

namespace Sys2Proof.Proofs

open Sys2Proof Sys2Proof.Machine

/-! ## The stop -/

theorem exec_ne_refused (i : Instr) (s : State) (r : Refusal) : exec i s ≠ .refused r := by
  cases exec_shape i s with
  | fail e info hx => rw [hx]; exact raise_ne_refused
  | keep r0 r1 hx => rw [hx]; exact finish_ne_refused
  | write a v hi hs ha hx => rw [hx]; exact finish_ne_refused
  | seals w d hi hs hw hn hv hx => rw [hx]; exact finish_ne_refused
  | gens w d n acc hi hs hw hn hg hx => rw [hx]; exact finish_ne_refused
  | corrupts w b m mode x hi hl hx => rw [hx]; exact finish_ne_refused
  | stop r hi hs hr hn hx => rw [hx]; simp

/-- What a fault says about the instruction and the state: of the shapes only the stop of DECODE is one. -/
theorem exec_fault_inv {i : Instr} {s : State} {f : Fault} (h : exec i s = .fault f) :
    f = .nearestOfEmptyCodebook ∧ s.block.cbSealed = true ∧ ¬ HasEntry s ∧
      ∃ r, i = .decode r ∧ r.toNat < 2 ^ s.block.cbWidth.toNat := by
  cases exec_shape i s with
  | fail e info hx => exact absurd (hx.symm.trans h) raise_ne_fault
  | keep r0 r1 hx => exact absurd (hx.symm.trans h) finish_ne_fault
  | write a v hi hs ha hx => exact absurd (hx.symm.trans h) finish_ne_fault
  | seals w d hi hs hw hn hv hx => exact absurd (hx.symm.trans h) finish_ne_fault
  | gens w d n acc hi hs hw hn hg hx => exact absurd (hx.symm.trans h) finish_ne_fault
  | corrupts w b m mode x hi hl hx => exact absurd (hx.symm.trans h) finish_ne_fault
  | stop r hi hs hr hn hx =>
    rw [hx] at h; cases h
    exact ⟨rfl, hs, fun he => (hasEntry_iff s).1 he hn, r, hi, hr⟩

/-- Settles O14, by the shapes of an answer: `exec_ne_refused`, `exec_fault_inv`, and `exec_decode_empty` for the converse. -/
theorem theOnlyStopIsAnEmptySealedCodebook : Obligations.TheOnlyStopIsAnEmptySealedCodebook := by
  refine fun i s => ⟨exec_ne_refused i s, fun f => ⟨exec_fault_inv, ?_⟩⟩
  rintro ⟨rfl, hs, he, r, rfl, hr⟩
  exact exec_decode_empty hs hr he

/-! ## ENCODE -/

/-- Settles O37, one branch of ENCODE after the other. -/
theorem encodeLooksTheSymbolUp : Obligations.EncodeLooksTheSymbolUp := by
  intro symbol s
  refine ⟨encodeCommand_encode symbol, fun hs => fails_of_raise (exec_encode_notReady hs), fun hs => ⟨?_, ?_⟩⟩
  · rintro (hwide | habsent)
    · exact fails_of_raise (exec_encode_notSymbol hs hwide)
    · exact fails_of_raise (exec_encode_absent hs habsent)
  · exact fun codeword ha => answersAndKeeps_of_finish (exec_encode_holds hs ha)

/-! ## DECODE -/

/-- A symbol that holds an entry fits a result word, since K is at most 5 (00_scope.md R6). -/
theorem toWord_toNat_of_holds {s : State} {a : Nat} {c : Word} (hk : s.KOk) (ha : Holds s a c) :
    (toWord a).toNat = a := by
  have hspace : 2 ^ s.k ≤ 2 ^ 5 := Nat.pow_le_pow_right (by decide) hk.2
  have hlt : a < 2 ^ s.k := ha.1
  exact toWord_toNat (by omega)

theorem toWord_toNat_hammingDistance (a b : Word) (w : Nat) :
    (toWord (hammingDistance a b w)).toNat = hammingDistance a b w := by
  have hle := hammingDistance_le a b w
  exact toWord_toNat (by omega)

/-- With an entry present `Nearest` returns a present symbol (42_codec.md R121). -/
theorem exists_nearest {s : State} (r : Word) (he : HasEntry s) : ∃ a d, nearest s r = some (a, d) := by
  obtain ⟨⟨a, d⟩, h⟩ := Option.ne_none_iff_exists'.1 (mt nearest_eq_none.1 ((hasEntry_iff s).1 he))
  exact ⟨a, d, h⟩

/-- Settles O38: the answer is that of `Nearest`, whose symbol and distance fit the result words. -/
theorem decodeAnswersTheNearestSymbol : Obligations.DecodeAnswersTheNearestSymbol := by
  intro r s hk
  refine ⟨encodeCommand_decode r, fun hs => fails_of_raise (exec_decode_notReady hs), fun hs =>
    ⟨fun hr => fails_of_raise (exec_decode_tooWide hs hr), fun hr he => ?_⟩⟩
  obtain ⟨a, d, hn⟩ := exists_nearest r he
  obtain ⟨c, hmem, rfl, hall⟩ := nearest_isNearest hn
  have ha : Holds s a c := holds_iff_mem_codebook.2 hmem
  refine ⟨_, _, c, answersAndKeeps_of_finish (exec_decode_nearest hs hr hn), ?_⟩
  rw [toWord_toNat_of_holds hk ha, toWord_toNat_hammingDistance]
  exact ⟨ha, rfl, fun b u hb => hall (b, u) (holds_iff_mem_codebook.1 hb)⟩

/-! ## Below half the minimum distance -/

/-- A symbol strictly nearer than every other present one is what `Nearest` returns. -/
theorem nearest_eq_of_nearer {s : State} {r c : Word} {a : Nat} (ha : Holds s a c)
    (hnearer : ∀ b u, Holds s b u → a ≠ b →
      hammingDistance r c s.block.cbWidth.toNat < hammingDistance r u s.block.cbWidth.toNat) :
    nearest s r = some (a, hammingDistance r c s.block.cbWidth.toNat) := by
  obtain ⟨b, d, hn⟩ := exists_nearest r ⟨a, c, ha⟩
  obtain ⟨u, hmem, rfl, hall⟩ := nearest_isNearest hn
  have hb : Holds s b u := holds_iff_mem_codebook.2 hmem
  obtain ⟨hle, -⟩ := hall (a, c) (holds_iff_mem_codebook.1 ha)
  by_cases hab : a = b
  · subst hab
    rw [hn, holds_unique ha hb]
  · exact absurd (hnearer b u hb hab) (Nat.not_lt.2 hle)

/-- A word nearer to `c` than half the distance from `c` to `u` is nearer to `c` than to `u`, by the triangle over `r`. -/
theorem nearer_of_far {r c u : Word} {w d : Nat} (hclose : 2 * hammingDistance r c w < d)
    (hfar : d ≤ hammingDistance c u w) : hammingDistance r c w < hammingDistance r u w := by
  have htriangle := hammingDistance_triangle c r u w
  rw [hammingDistance_comm c r] at htriangle
  omega

/-- An entry of the table is one of the symbol space (20_memory.md R40). -/
theorem holds_of_memRead {s : State} {a : Nat} {c : Word} (hinv : s.Inv) (ha : memRead s.block.lut a = some c) :
    Holds s a c :=
  ⟨hinv.table.2 a c ha, ha⟩

/-- Settles O40: every other codeword is at the minimum distance or more from `c` (10_state.md R27), so `r` is nearer to `c`. -/
theorem decoderCorrectsBelowHalfTheDistance : Obligations.DecoderCorrectsBelowHalfTheDistance := by
  intro s a c r hinv hs ha hr hclose
  obtain ⟨-, -, -, hfar⟩ := hinv.sealed hs
  have hn := nearest_eq_of_nearer (holds_of_memRead hinv ha) fun b u hb hab =>
    nearer_of_far hclose (hfar a b c u ha hb.2 hab)
  exact answersAndKeeps_of_finish (exec_decode_nearest hs hr hn)

/-- Settles O39: ENCODE reads the codeword, and DECODE corrects it at distance 0, which is below half of any minimum distance
of 1 or more. -/
theorem roundTripWithoutNoise : Obligations.RoundTripWithoutNoise := by
  intro s a c hinv hs hdmin ha
  have hheld : Holds s a c := holds_of_memRead hinv ha
  obtain ⟨-, -, hfit, -⟩ := hinv.sealed hs
  have hzero : hammingDistance c c s.block.cbWidth.toNat = 0 := hammingDistance_eq_zero_iff.2 fun _ _ => rfl
  constructor
  · have hsymbol : (BitVec.ofNat 32 a).toNat = a := toWord_toNat_of_holds hinv.k hheld
    exact answersAndKeeps_of_finish (exec_encode_holds hs (by rwa [hsymbol]))
  · have hdecode := decoderCorrectsBelowHalfTheDistance s a c c hinv hs ha (hfit a c ha) (by omega)
    rwa [hzero] at hdecode

end Sys2Proof.Proofs
end

section
/-! SUPPORT. The sub-blocks of a word (43_channel.md R130): their bits, their place in the word, and the bytes of a codeword as
the sub-blocks of one byte (20_memory.md R44). -/

namespace Sys2Proof.Proofs

open Sys2Proof Sys2Proof.Machine

/-- Bit `p` of sub-block `j` (43_channel.md R130). -/
theorem subBlock_getLsbD (w b j p : Nat) (x : Word) :
    (subBlock w b j x).getLsbD p = (decide (p < b) && x.getLsbD (w - b - j * b + p)) := by
  rw [subBlock, BitVec.getLsbD_and, BitVec.getLsbD_ushiftRight, lowMask_getLsbD]
  by_cases hp : p < 32
  · simp [hp, Bool.and_comm]
  · rw [BitVec.getLsbD_of_ge x _ (by omega)]
    simp

/-- After block `j` of `n` blocks come `n - 1 - j` more, so its lowest bit is at that multiple of the block width. -/
theorem subBlock_start (n b j : Nat) : n * b - b - j * b = (n - 1 - j) * b := by
  rw [Nat.sub_mul, Nat.sub_mul, Nat.one_mul]

/-- A word whose bits from `w` on are 0 is below `2 ^ w`; the converse is `getLsbD_eq_false_of_toNat_lt`. -/
theorem toNat_lt_of_getLsbD_eq_false {x : Word} {w : Nat} (h : ∀ i, w ≤ i → x.getLsbD i = false) : x.toNat < 2 ^ w :=
  Nat.lt_pow_two_of_testBit _ h

theorem subBlock_toNat_lt (w b j : Nat) (x : Word) : (subBlock w b j x).toNat < 2 ^ b :=
  toNat_lt_of_getLsbD_eq_false fun i hi => by simp [subBlock_getLsbD, Nat.not_lt.2 hi]

/-- Two words that agree on every position of each of their `n` blocks are equal. -/
theorem eq_of_blocks {n b : Nat} {x y : Word} (hx : x.toNat < 2 ^ (n * b)) (hy : y.toNat < 2 ^ (n * b))
    (h : ∀ q p, q < n → p < b → x.getLsbD (q * b + p) = y.getLsbD (q * b + p)) : x = y := by
  refine BitVec.eq_of_getLsbD_eq fun i _ => ?_
  rcases Nat.lt_or_ge i (n * b) with hi | hi
  · have hb : 0 < b := Nat.pos_of_mul_pos_left (Nat.zero_lt_of_lt hi)
    rw [← Nat.div_add_mod' i b]
    exact h _ _ ((Nat.div_lt_iff_lt_mul hb).2 hi) (Nat.mod_lt i hb)
  · rw [getLsbD_eq_false_of_toNat_lt hx hi, getLsbD_eq_false_of_toNat_lt hy hi]

/-- Settles O47: bit by bit, byte `n` and sub-block `n` start at the same bit of the word. -/
theorem byteBlocksAreTheCodewordBytes : Obligations.ByteBlocksAreTheCodewordBytes := by
  intro nb n x _ hn
  have hstart : 8 * nb - 8 - n * 8 = (nb - 1 - n) * 8 := by omega
  refine ⟨BitVec.eq_of_getLsbD_eq fun p hp => ?_, fun p hp => ?_⟩
  · rw [subBlock_getLsbD, codewordByte, BitVec.getLsbD_setWidth, BitVec.getLsbD_extractLsb', Nat.mul_comm n 8]
    simp [hp]
  · rw [subBlock_getLsbD, hstart]
    simp [hp]

end Sys2Proof.Proofs
end

section
/-! SUPPORT. What CORRUPT executes to (43_channel.md R133): its control word, its refusals, its one answer; and the budget flag
(R135). -/

namespace Sys2Proof.Proofs

open Sys2Proof Sys2Proof.Machine

theorem encodeCommand_corrupt {w b m : Nat} (mode : FlipMode) (x : Word) (hw : w < 64) (hb : b < 64) (hm : m < 64) :
    encodeCommand (.corrupt w b m mode x) = ⟨0x50000000 ||| (BitVec.ofNat 32 w <<< 21) ||| (BitVec.ofNat 32 b <<< 15) |||
      (BitVec.ofNat 32 m <<< 9) ||| ((if mode = .exact then 1 else 0) <<< 8), x, 0⟩ := by
  rw [encodeCommand, controlWord_eq_or _ _ hw hb hm]
  cases mode <;> simp [FlipMode.bit]

section Corrupt

variable {w b m : Nat} {mode : FlipMode} {x : Word} {s t : State}

/-- The operands are legal exactly when the four checks of R133 pass. -/
theorem corruptLegal_iff :
    CorruptLegal w b m x ↔ widthInRange w = true ∧ blockInRange w b = true ∧ ¬ b < m ∧ fitsBits w x = true := by
  simp only [CorruptLegal, widthInRange_eq_true, blockInRange_eq_true, fitsBits_eq_true, Nat.not_lt, and_assoc]

/-- Whichever of the four checks fails, CORRUPT raises InvalidValueRange. -/
theorem exec_corrupt_illegal (h : ¬ CorruptLegal w b m x) :
    exec (.corrupt w b m mode x) s = raise .invalidValueRange 0 s := by
  simp only [exec, execCorrupt, Bool.not_eq_true']
  split_ifs with hwidth hblock hmax hword
  · rfl
  · rfl
  · rfl
  · rfl
  · exact absurd (corruptLegal_iff.2 ⟨by simpa using hwidth, by simpa using hblock, hmax, by simpa using hword⟩) h

/-- With legal operands CORRUPT answers what the loop over the blocks makes of the word and the budget flag, and leaves the
source as the loop does. -/
theorem exec_corrupt_legal (h : CorruptLegal w b m x) :
    exec (.corrupt w b m mode x) s =
      finish (corruptBlocks b m mode (w / b) x s.source).1 (budgetFlag s.block w (w / b) m)
        (setSource (corruptBlocks b m mode (w / b) x s.source).2 s) := by
  obtain ⟨hwidth, hblock, hmax, hword⟩ := corruptLegal_iff.1 h
  simp [exec, execCorrupt, hwidth, hblock, hmax, hword]

/-- The response of CORRUPT, and the block and the source after it. -/
theorem exec_corrupt_next (h : CorruptLegal w b m x) (ht : exec (.corrupt w b m mode x) s = .next t) :
    Answered s t .ok (corruptBlocks b m mode (w / b) x s.source).1 (budgetFlag s.block w (w / b) m) ∧
      t.block = s.block ∧ t.source = (corruptBlocks b m mode (w / b) x s.source).2 := by
  rw [exec_corrupt_legal h, finish_eq_next] at ht
  subst ht
  simp [Answered]

theorem exec_corrupt_answers (h : CorruptLegal w b m x) (mode : FlipMode) (s : State) :
    ∃ t, exec (.corrupt w b m mode x) s = .next t :=
  ⟨_, exec_corrupt_legal h⟩

/-- What legal operands say of the blocks: they fill the word, which fits the data word. -/
theorem corruptLegal_blocks (h : CorruptLegal w b m x) : m ≤ b ∧ b ≤ 32 ∧ w / b * b = w ∧ w ≤ 32 := by
  obtain ⟨⟨-, hw⟩, ⟨-, hb, hdvd⟩, hm, -⟩ := h
  exact ⟨hm, by omega, Nat.div_mul_cancel (Nat.dvd_of_mod_eq_zero hdvd), hw⟩

end Corrupt

/-- A command gives one response only. -/
theorem answered_unique {s t : State} {st st' : Status} {r0 r1 r0' r1' : Word} (h : Answered s t st r0 r1)
    (h' : Answered s t st' r0' r1') : st = st' ∧ r0 = r0' ∧ r1 = r1' := by
  simpa using h.1.symm.trans h'.1

/-- The budget flag of R135. -/
theorem budgetFlag_eq_one_iff {blk : Block} {w n m : Nat} :
    budgetFlag blk w n m = 1 ↔ blk.cbSealed = true ∧ w = blk.cbWidth.toNat ∧ blk.cbDmin.toNat ≤ 2 * (n * m) := by
  rw [budgetFlag, ← and_assoc]
  split <;> simp_all [budgetExceeded]

theorem budgetFlag_eq_one_or_zero (blk : Block) (w n m : Nat) :
    budgetFlag blk w n m = 1 ∨ budgetFlag blk w n m = 0 := by
  rw [budgetFlag]
  exact ite_eq_or_eq ..

/-- Settles O43: the flag is that of R135, and the word answered is the loop's, which reads the source and no block. -/
theorem budgetFlagMarksSettingsBeyondTheBound : Obligations.BudgetFlagMarksSettingsBeyondTheBound := by
  intro w b m mode x s hlegal
  obtain ⟨t, ht⟩ := exec_corrupt_answers hlegal mode s
  obtain ⟨hanswer, -, -⟩ := exec_corrupt_next hlegal ht
  refine ⟨t, _, _, ht, hanswer, budgetFlag_eq_one_or_zero .., budgetFlag_eq_one_iff,
    fun s' t' out' r1' hsource ht' hanswer' => ?_⟩
  obtain ⟨hloop, -, -⟩ := exec_corrupt_next hlegal ht'
  rw [hsource] at hloop
  exact (answered_unique hanswer' hloop).2.1

end Sys2Proof.Proofs
end

section
/-! SUPPORT. The loop of CORRUPT when the source lists its draws (43_channel.md R132, R133): each block takes its pair of count
and set, so the word answered and the source left have a closed form. -/

namespace Sys2Proof.Proofs

open Sys2Proof Sys2Proof.Machine

/-- The draw of one block is within the contract: a count that the mode allows, and the mask of that many positions of the
block (43_channel.md R132). -/
def DrawOk (mode : FlipMode) (b m : Nat) (draw : Nat × Word) : Prop :=
  FlipsOk mode m draw.1 ∧ popcount draw.2 = draw.1 ∧ draw.2.toNat < 2 ^ b

/-! ## One block -/

section Block

variable {b m : Nat} {mode : FlipMode} {src : Source} {draw : Nat × Word} {counts : List Nat} {sets : List Word}

/-- A set of positions within the contract stands for itself as a mask (43_channel.md R132). -/
theorem pickPositions_eq_self {n : Nat} {set : Word} (hb : b ≤ 32) (hn : popcount set = n) (hset : set.toNat < 2 ^ b) :
    pickPositions b n set = set := by
  have hlow : popcountBelow set b = n := by
    rw [← hn, popcount, popcountBelow_of_high_zero hb fun i hi => getLsbD_eq_false_of_toNat_lt hset hi]
  refine BitVec.eq_of_getLsbD_eq fun i _ => ?_
  rcases Nat.lt_or_ge i b with hi | hi
  · exact pickPositions_legal hb hlow i hi
  · rw [pickPositions_high hi, getLsbD_eq_false_of_toNat_lt hset hi]

theorem popcount_eq_zero_iff {x : Word} : popcount x = 0 ↔ x = 0#32 := by
  rw [popcount, popcountBelow_eq_zero]
  exact ⟨fun h => BitVec.eq_of_getLsbD_eq fun i hi => by simpa using h i hi, fun h i _ => by simp [h]⟩

/-- A block takes the count listed for it, and in exact mode none. -/
theorem blockCount_draw (hok : FlipsOk mode m draw.1) (hcounts : src.counts = drawnCounts mode [draw] ++ counts) :
    blockCount mode m src = (draw.1, { src with
      counts := counts
      requests := src.requests ++ if mode = .random then [.count m] else [] }) := by
  cases mode with
  | random => simp [rndCount, hcounts, drawnCounts, countAnswer_of_le hok]
  | exact =>
    have hcount : draw.1 = m := hok
    have hkept : src.counts = counts := hcounts
    simp [hcount, ← hkept]

/-- A block takes the set listed for it, and for a count of 0 none. -/
theorem blockPositions_draw (hb : b ≤ 32) (hn : popcount draw.2 = draw.1) (hset : draw.2.toNat < 2 ^ b)
    (hsets : src.positions = drawnSets [draw] ++ sets) :
    blockPositions b draw.1 src = (draw.2, { src with
      positions := sets
      requests := src.requests ++ if draw.1 = 0 then [] else [.positions b draw.1] }) := by
  by_cases hzero : draw.2 = 0#32
  · have hcount : draw.1 = 0 := by rw [← hn, popcount_eq_zero_iff, hzero]
    have hkept : src.positions = sets := by simpa [drawnSets, hzero] using hsets
    simp [hcount, hzero, ← hkept]
  · have hcount : draw.1 ≠ 0 := by rwa [← hn, Ne, popcount_eq_zero_iff]
    have hlisted : src.positions = draw.2 :: sets := by simpa [drawnSets, List.filter_cons, hzero] using hsets
    simp [blockPositions_of_ne_zero hcount, rndPositions, hlisted, hcount, pickPositions_eq_self hb hn hset]

/-- A block takes its draw and sends the requests of it (43_channel.md R132). -/
theorem block_draw (hb : b ≤ 32) (hdraw : DrawOk mode b m draw)
    (hcounts : src.counts = drawnCounts mode [draw] ++ counts) (hsets : src.positions = drawnSets [draw] ++ sets) :
    blockPositions b (blockCount mode m src).1 (blockCount mode m src).2 =
      (draw.2, ⟨counts, sets, src.requests ++ drawRequests mode b m draw⟩) := by
  obtain ⟨hok, hn, hset⟩ := hdraw
  simp only [blockCount_draw hok hcounts]
  rw [blockPositions_draw (sets := sets) hb hn hset]
  · simp [drawRequests]
  · exact hsets

theorem drawnCounts_cons (mode : FlipMode) (draw : Nat × Word) (draws : List (Nat × Word)) :
    drawnCounts mode (draw :: draws) = drawnCounts mode [draw] ++ drawnCounts mode draws := by
  cases mode <;> rfl

theorem drawnSets_cons (draw : Nat × Word) (draws : List (Nat × Word)) :
    drawnSets (draw :: draws) = drawnSets [draw] ++ drawnSets draws := by
  rw [← List.singleton_append, drawnSets, List.map_append, List.filter_append]
  rfl

end Block

/-! ## The loop -/

/-- What the draws of consecutive blocks flip, the last block in the lowest bits (43_channel.md R130). -/
def drawnFlips (b : Nat) : List (Nat × Word) → Word
  | [] => 0
  | draw :: draws => (draw.2 <<< (draws.length * b)) ^^^ drawnFlips b draws

theorem drawnFlips_high {b : Nat} : ∀ {draws : List (Nat × Word)}, (∀ d ∈ draws, d.2.toNat < 2 ^ b) →
    ∀ {i : Nat}, draws.length * b ≤ i → (drawnFlips b draws).getLsbD i = false
  | [], _, i, _ => by simp [drawnFlips]
  | draw :: draws, hsets, i, hi => by
    obtain ⟨hset, hrest⟩ := List.forall_mem_cons.1 hsets
    rw [List.length_cons, Nat.succ_mul] at hi
    rw [drawnFlips, BitVec.getLsbD_xor, BitVec.getLsbD_shiftLeft, drawnFlips_high hrest (by omega),
      getLsbD_eq_false_of_toNat_lt hset (by omega)]
    simp

/-- Position `p` of block `j` is flipped exactly when the set of block `j` has `p` (43_channel.md R130, R133). -/
theorem drawnFlips_getLsbD {b p : Nat} (hp : p < b) : ∀ {draws : List (Nat × Word)},
    (∀ d ∈ draws, d.2.toNat < 2 ^ b) → draws.length * b ≤ 32 → ∀ {j : Nat}, j < draws.length →
      (drawnFlips b draws).getLsbD ((draws.length - 1 - j) * b + p) = (draws.getD j (0, 0)).2.getLsbD p
  | draw :: draws, hsets, hfit, j, hj => by
    obtain ⟨hset, hrest⟩ := List.forall_mem_cons.1 hsets
    rw [List.length_cons, Nat.succ_mul] at hfit
    rw [drawnFlips, BitVec.getLsbD_xor, BitVec.getLsbD_shiftLeft]
    cases j with
    | zero =>
      rw [List.length_cons, Nat.add_sub_cancel, Nat.sub_zero, drawnFlips_high hrest (Nat.le_add_right ..)]
      simp [show draws.length * b + p < 32 by omega]
    | succ j =>
      have hj : j < draws.length := Nat.lt_of_succ_lt_succ hj
      have hlow : (draws.length - 1 - j + 1) * b ≤ draws.length * b := Nat.mul_le_mul_right b (by omega)
      rw [Nat.succ_mul] at hlow
      rw [List.length_cons, show draws.length + 1 - 1 - (j + 1) = draws.length - 1 - j by omega,
        drawnFlips_getLsbD hp hrest (by omega) hj]
      simp [show (draws.length - 1 - j) * b + p < draws.length * b by omega]

/-- The loop over the blocks with their draws listed: the word is flipped where they say, the answers after them stay listed,
and the requests are sent block by block. -/
theorem corruptBlocks_draws {b m : Nat} {mode : FlipMode} (hb : b ≤ 32) {counts : List Nat} {sets : List Word} :
    ∀ (draws : List (Nat × Word)) (x : Word) (src : Source),
      (∀ d ∈ draws, DrawOk mode b m d) →
      src.counts = drawnCounts mode draws ++ counts → src.positions = drawnSets draws ++ sets →
      corruptBlocks b m mode draws.length x src =
        (x ^^^ drawnFlips b draws, ⟨counts, sets, src.requests ++ draws.flatMap (drawRequests mode b m)⟩)
  | [], x, ⟨_, _, requests⟩, _, hcounts, hsets => by
    have hkept : drawnCounts mode [] = [] := by cases mode <;> rfl
    rw [hkept] at hcounts
    subst hcounts hsets
    simp [corruptBlocks, drawnFlips]
  | draw :: draws, x, src, hdraws, hcounts, hsets => by
    obtain ⟨hdraw, hrest⟩ := List.forall_mem_cons.1 hdraws
    rw [drawnCounts_cons, List.append_assoc] at hcounts
    rw [drawnSets_cons, List.append_assoc] at hsets
    simp only [List.length_cons, corruptBlocks, block_draw hb hdraw hcounts hsets]
    rw [corruptBlocks_draws hb draws _ _ hrest rfl rfl]
    simp [drawnFlips, BitVec.xor_assoc]

end Sys2Proof.Proofs
end

section
/-! SUPPORT. How many bits CORRUPT flips (43_channel.md R134), block by block and in the whole word, and the draws that make a
given word of another. -/

namespace Sys2Proof.Proofs

open Sys2Proof Sys2Proof.Machine

/-! ## The count of the whole word -/

/-- The bits below `a + c` are those below `a` and the `c` bits from `a` on. -/
theorem popcountBelow_add (x : Word) (a c : Nat) :
    popcountBelow x (a + c) = popcountBelow x a + popcountBelow (x >>> a) c := by
  induction c with
  | zero => rfl
  | succ c ih => rw [← Nat.add_assoc, popcountBelow, popcountBelow, ih, BitVec.getLsbD_ushiftRight, Nat.add_assoc]

theorem flipsOk_zero (mode : FlipMode) : FlipsOk mode 0 0 := by
  cases mode with
  | random => exact Nat.le_refl 0
  | exact => rfl

theorem flipsOk_add {mode : FlipMode} {m m' n n' : Nat} (h : FlipsOk mode m n) (h' : FlipsOk mode m' n') :
    FlipsOk mode (m + m') (n + n') := by
  cases mode with
  | random => exact Nat.add_le_add h h'
  | exact => exact congrArg₂ (· + ·) h h'

theorem flipsOk_le {mode : FlipMode} {m n : Nat} (h : FlipsOk mode m n) : n ≤ m := by
  cases mode with
  | random => exact h
  | exact => exact Nat.le_of_eq h

/-- A bound on each of `n` blocks adds up to `n` times the bound (43_channel.md R134). -/
theorem flipsOk_blocks {mode : FlipMode} {m b : Nat} {y : Word} {n : Nat}
    (h : ∀ q < n, FlipsOk mode m (popcountBelow (y >>> (q * b)) b)) : FlipsOk mode (n * m) (popcountBelow y (n * b)) := by
  induction n with
  | zero => simpa [popcountBelow] using flipsOk_zero mode
  | succ n ih =>
    rw [Nat.succ_mul, Nat.succ_mul, popcountBelow_add]
    exact flipsOk_add (ih fun q hq => h q (by omega)) (h n (by omega))

/-! ## The bounds of the loop -/

section Bounds

variable {w b m : Nat} {mode : FlipMode} {x : Word}

/-- The set bits of a sub-block, counted at its place in the word. -/
theorem popcount_subBlock_of_legal (h : CorruptLegal w b m x) (j : Nat) (y : Word) :
    popcount (subBlock w b j y) = popcountBelow (y >>> ((w / b - 1 - j) * b)) b := by
  obtain ⟨-, hb, hw, -⟩ := corruptLegal_blocks h
  rw [popcount_subBlock hb, ← subBlock_start, hw]

/-- The loop keeps the word within its width: it flips bits of its blocks only. -/
theorem corruptBlocks_toNat_lt (h : CorruptLegal w b m x) (src : Source) :
    (corruptBlocks b m mode (w / b) x src).1.toNat < 2 ^ w := by
  obtain ⟨-, -, hw, -⟩ := corruptLegal_blocks h
  obtain ⟨-, -, -, hx⟩ := h
  refine toNat_lt_of_getLsbD_eq_false fun i hi => ?_
  have hflips := flippedBits_high (maxFlips := m) (mode := mode) (out := x) (src := src) (hw.trans_le hi)
  rw [flippedBits, BitVec.getLsbD_xor, getLsbD_eq_false_of_toNat_lt hx hi, Bool.xor_false] at hflips
  exact hflips

theorem corruptBlocks_flips_block (h : CorruptLegal w b m x) (src : Source) {j : Nat} (hj : j < w / b) :
    FlipsOk mode m (popcount (subBlock w b j ((corruptBlocks b m mode (w / b) x src).1 ^^^ x))) := by
  obtain ⟨hm, -, hw, hw32⟩ := corruptLegal_blocks h
  rw [popcount_subBlock_of_legal h]
  exact (flippedBits_spec hm (w / b) x src (hw.trans_le hw32)).2 _ (by omega)

theorem corruptBlocks_flips_word (h : CorruptLegal w b m x) (src : Source) :
    FlipsOk mode (w / b * m) (hammingDistance (corruptBlocks b m mode (w / b) x src).1 x w) := by
  obtain ⟨hm, -, hw, hw32⟩ := corruptLegal_blocks h
  have hblocks := flipsOk_blocks (flippedBits_spec (mode := mode) hm (w / b) x src (hw.trans_le hw32)).2
  rw [hw] at hblocks
  rwa [hammingDistance_eq, Nat.min_eq_left hw32]

end Bounds

/-! ## The draws of a word -/

/-- The draws, block 0 first, whose sets are the sub-blocks of `y` and whose counts are theirs. -/
def blockDraws (w b : Nat) (y : Word) : List (Nat × Word) :=
  (List.range (w / b)).map fun j => (popcount (subBlock w b j y), subBlock w b j y)

@[simp] theorem blockDraws_length (w b : Nat) (y : Word) : (blockDraws w b y).length = w / b := by
  simp [blockDraws]

theorem blockDraws_getD {w b j : Nat} (y : Word) (hj : j < w / b) :
    (blockDraws w b y).getD j (0, 0) = (popcount (subBlock w b j y), subBlock w b j y) := by
  simp [blockDraws, hj]

theorem forall_mem_blockDraws {w b : Nat} {y : Word} {p : Nat × Word → Prop} :
    (∀ d ∈ blockDraws w b y, p d) ↔ ∀ j < w / b, p (popcount (subBlock w b j y), subBlock w b j y) := by
  simp [blockDraws]

/-- Flipping each block at the bits of its sub-block of `y` flips exactly the bits of `y`. -/
theorem drawnFlips_blockDraws {w b : Nat} {y : Word} (hw : w / b * b = w) (hw32 : w ≤ 32) (hy : y.toNat < 2 ^ w) :
    drawnFlips b (blockDraws w b y) = y := by
  have hlength : (blockDraws w b y).length * b = w := by rw [blockDraws_length, hw]
  have hsets : ∀ d ∈ blockDraws w b y, d.2.toNat < 2 ^ b := forall_mem_blockDraws.2 fun j _ => subBlock_toNat_lt w b j y
  refine eq_of_blocks (n := w / b) (b := b) ?_ (by rwa [hw]) fun q p hq hp => ?_
  · exact toNat_lt_of_getLsbD_eq_false fun i hi => drawnFlips_high hsets (by omega)
  · have hj : w / b - 1 - q < w / b := by omega
    have hlast : w / b - 1 - (w / b - 1 - q) = q := by omega
    have hstart := subBlock_start (w / b) b (w / b - 1 - q)
    rw [hw, hlast] at hstart
    have hbit := drawnFlips_getLsbD hp hsets (by omega) (hj.trans_eq (blockDraws_length w b y).symm)
    rw [blockDraws_getD y hj, blockDraws_length, hlast, subBlock_getLsbD, hstart] at hbit
    simpa [hp] using hbit

end Sys2Proof.Proofs
end

section
/-! SUPPORT. CORRUPT (43_channel.md): the answers of R133 and R134, the requests of R132, and the decoder after a channel
within the budget (R136). -/

namespace Sys2Proof.Proofs

open Sys2Proof Sys2Proof.Machine

/-- CORRUPT with its draws listed: it answers the word flipped where they say, and takes them from the source. -/
theorem exec_corrupt_draws {w b m : Nat} {mode : FlipMode} {x : Word} {s : State} {draws : List (Nat × Word)}
    {counts : List Nat} {sets : List Word} (h : CorruptLegal w b m x) (hlength : draws.length = w / b)
    (hdraws : ∀ d ∈ draws, DrawOk mode b m d)
    (hcounts : s.source.counts = drawnCounts mode draws ++ counts)
    (hsets : s.source.positions = drawnSets draws ++ sets) :
    ∃ t, exec (.corrupt w b m mode x) s = .next t ∧
      Answered s t .ok (x ^^^ drawnFlips b draws) (budgetFlag s.block w (w / b) m) ∧ t.block = s.block ∧
      t.source = ⟨counts, sets, s.source.requests ++ draws.flatMap (drawRequests mode b m)⟩ := by
  obtain ⟨-, hb, -, -⟩ := corruptLegal_blocks h
  obtain ⟨t, ht⟩ := exec_corrupt_answers h mode s
  have hnext := exec_corrupt_next h ht
  rw [← hlength, corruptBlocks_draws hb draws x s.source hdraws hcounts hsets, hlength] at hnext
  exact ⟨t, ht, hnext⟩

/-- A source that lists these draws and nothing more. -/
def listedSource (mode : FlipMode) (draws : List (Nat × Word)) : Source :=
  { counts := drawnCounts mode draws, positions := drawnSets draws, requests := [] }

/-- Settles O41: the refusals by `exec_corrupt_illegal`, the answer by `exec_corrupt_draws`, read bit by bit. -/
theorem corruptFollowsItsDraws : Obligations.CorruptFollowsItsDraws := by
  intro w b m mode x s hw hb hm
  refine ⟨encodeCommand_corrupt mode x hw hb hm, fun hillegal => fails_of_raise (exec_corrupt_illegal hillegal),
    fun hlegal draws counts sets hlength hdraws hcounts hsets => ?_⟩
  obtain ⟨-, -, hblocks, hw32⟩ := corruptLegal_blocks hlegal
  obtain ⟨t, ht, hanswer, hblock, hsource⟩ := exec_corrupt_draws hlegal hlength hdraws hcounts hsets
  have hbelow : ∀ d ∈ draws, d.2.toNat < 2 ^ b := fun d hd => by
    obtain ⟨-, -, hset⟩ := hdraws d hd
    exact hset
  refine ⟨t, _, ht, hanswer, hblock, ?_, fun j p hj hp => ?_, by rw [hsource], by rw [hsource], by rw [hsource]⟩
  · obtain ⟨hloop, -, -⟩ := exec_corrupt_next hlegal ht
    rw [(answered_unique hanswer hloop).2.1]
    exact corruptBlocks_toNat_lt hlegal s.source
  · rw [← hlength] at hj hblocks ⊢
    rw [BitVec.getLsbD_xor, drawnFlips_getLsbD hp hbelow (hblocks.trans_le hw32) hj]

/-- Settles O42: the bounds are those of the loop, and a word within them is answered when the draws are the sub-blocks of
its difference to the input. -/
theorem corruptAnswersAreExactlyTheBoundedOnes : Obligations.CorruptAnswersAreExactlyTheBoundedOnes := by
  intro w b m mode x s hlegal
  obtain ⟨-, -, hblocks, hw32⟩ := corruptLegal_blocks hlegal
  constructor
  · obtain ⟨t, ht⟩ := exec_corrupt_answers hlegal mode s
    obtain ⟨hanswer, hblock, -⟩ := exec_corrupt_next hlegal ht
    exact ⟨t, _, _, ht, hanswer, hblock, corruptBlocks_toNat_lt hlegal _,
      fun j hj => corruptBlocks_flips_block hlegal _ hj, corruptBlocks_flips_word hlegal _⟩
  · intro out hout hflips
    have hdiff : (out ^^^ x).toNat < 2 ^ w := by
      obtain ⟨-, -, -, hx⟩ := hlegal
      rw [BitVec.toNat_xor]
      exact Nat.xor_lt_two_pow hout hx
    have hdraws : ∀ d ∈ blockDraws w b (out ^^^ x), DrawOk mode b m d :=
      forall_mem_blockDraws.2 fun j hj => ⟨hflips j hj, rfl, subBlock_toNat_lt ..⟩
    obtain ⟨t, ht, hanswer, -, -⟩ := exec_corrupt_draws (s := setSource (listedSource mode (blockDraws w b (out ^^^ x))) s)
      hlegal (blockDraws_length ..) hdraws (List.append_nil _).symm (List.append_nil _).symm
    rw [drawnFlips_blockDraws hblocks hw32 hdiff, xor_xor_cancel_comm_assoc] at hanswer
    exact ⟨_, t, _, ht, hanswer⟩

/-! ## The requests -/

theorem corruptBlocks_exact_requests (b m n : Nat) (x : Word) (src : Source) :
    (corruptBlocks b m .exact n x src).2.requests =
      src.requests ++ (if m = 0 then [] else List.replicate n (.positions b m)) := by
  induction n generalizing x src with
  | zero => simp [corruptBlocks]
  | succ n ih =>
    rw [corruptBlocks, ih]
    by_cases hm : m = 0
    · simp [hm]
    · simp [hm, blockPositions_of_ne_zero, List.replicate_succ]

/-- Settles O44, by the requests of the loop. -/
theorem exactModeRequestsPositionsOnly : Obligations.ExactModeRequestsPositionsOnly := by
  intro w b m x s t hlegal ht
  obtain ⟨-, -, hsource⟩ := exec_corrupt_next hlegal ht
  rw [hsource, corruptBlocks_exact_requests]

/-- Settles O45, by what the loop draws in mode 0 (`corruptBlocks_random`). -/
theorem randomModeRequestsCountThenPositions : Obligations.RandomModeRequestsCountThenPositions := by
  intro w b m x s hlegal
  obtain ⟨hm, -, hblocks, hw32⟩ := corruptLegal_blocks hlegal
  obtain ⟨t, ht⟩ := exec_corrupt_answers hlegal .random s
  obtain ⟨hanswer, -, hsource⟩ := exec_corrupt_next hlegal ht
  obtain ⟨ns, hlength, hrequests, hns⟩ := corruptBlocks_random hm (w / b) x s.source (hblocks.trans_le hw32)
  refine ⟨t, _, _, ht, hanswer, ns, hlength, by rw [hsource, hrequests], fun j hj => ?_⟩
  obtain ⟨hcount, hflips⟩ := hns j hj
  refine ⟨hcount ▸ countAnswer_le _ _, hcount, ?_⟩
  rw [popcount_subBlock_of_legal hlegal]
  exact hflips

/-! ## The channel and the decoder -/

/-- Settles O46: flag 0 puts the ceiling below half the minimum distance, and the answer is within the ceiling, where DECODE
corrects it. -/
theorem channelWithinTheBudgetIsCorrected : Obligations.ChannelWithinTheBudgetIsCorrected := by
  intro w b m mode s t a c out hinv hsealed hwidth hread hlegal ht hanswer
  obtain ⟨hloop, hblock, -⟩ := exec_corrupt_next hlegal ht
  obtain ⟨-, rfl, hflag⟩ := answered_unique hanswer hloop
  have hbudget : 2 * (w / b * m) < s.block.cbDmin.toNat := by
    have hunset : budgetFlag s.block w (w / b) m ≠ 1 := by simp [← hflag]
    exact Nat.not_le.1 fun hle => hunset (budgetFlag_eq_one_iff.2 ⟨hsealed, hwidth, hle⟩)
  have hclose := flipsOk_le (corruptBlocks_flips_word (mode := mode) hlegal s.source)
  refine ⟨hbudget, hclose, _, decoderCorrectsBelowHalfTheDistance t a c _ (exec_inv hinv ht) ?_ ?_ ?_ ?_⟩
  · rw [hblock, hsealed]
  · rw [hblock, hread]
  · rw [hblock, ← hwidth]
    exact corruptBlocks_toNat_lt hlegal s.source
  · rw [hblock, ← hwidth]
    omega

end Sys2Proof.Proofs
end

section
/-! SUPPORT. What the commands of ParityFrame execute to (44_parityframe.md R144 to R147), and which answers FRAME_ENC and
FRAME_DEC give: a byte passes exactly when it is the frame of its payload (R142). -/

namespace Sys2Proof.Proofs

open Sys2Proof Sys2Proof.Machine

/-- An instruction gives one answer only. -/
theorem answersAndKeeps_unique {i : Instr} {s : State} {st st' : Status} {r0 r1 r0' r1' : Word}
    (h : AnswersAndKeeps i s st r0 r1) (h' : AnswersAndKeeps i s st' r0' r1') : st = st' ∧ r0 = r0' ∧ r1 = r1' := by
  obtain ⟨t, ht, hanswer, -⟩ := h
  obtain ⟨t', ht', hanswer', -⟩ := h'
  rw [ht, Host.Outcome.next.injEq] at ht'
  subst ht'
  exact answered_unique hanswer hanswer'

/-- A command that fails does not answer OK. -/
theorem not_ok_of_fails {i : Instr} {s : State} {e : ErrorStatus} {info r0 r1 : Word} (h : Fails i s e info) :
    ¬ AnswersAndKeeps i s .ok r0 r1 :=
  fun hok => Status.noConfusion (answersAndKeeps_unique hok h).1

/-- A word below 2^8 is a frame byte put in a data word. -/
theorem setWidth_setWidth_of_byte {f : Word} (hf : f.toNat < 2 ^ 8) : (f.setWidth 8).setWidth 32 = f := by
  apply BitVec.eq_of_toNat_eq
  rw [BitVec.toNat_setWidth, BitVec.toNat_setWidth]
  omega

/-- Putting bits in a wider word loses none of them. -/
theorem setWidth_inj_of_le {m n : Nat} (h : m ≤ n) {a b : BitVec m} : a.setWidth n = b.setWidth n ↔ a = b := by
  refine ⟨fun hab => ?_, fun hab => hab ▸ rfl⟩
  simpa [BitVec.setWidth_setWidth_of_le _ h] using congrArg (BitVec.setWidth m) hab

theorem frameWord_toNat_lt (f : Frame) : (f.setWidth 32).toNat < 2 ^ 8 := by
  rw [BitVec.toNat_setWidth]
  omega

theorem nibbleWord_toNat_lt (n : Nibble) : (n.setWidth 32).toNat < 2 ^ 4 := by
  rw [BitVec.toNat_setWidth]
  omega

/-! ## The outcomes of CheckFrame -/

section CheckFrame

variable {f : Frame} {v : Variant}

theorem checkFrame_eq_structural (hm : markersOk f v = false) : checkFrame f v = .structural := by
  simp [checkFrame, hm]

theorem checkFrame_eq_parity (hm : markersOk f v = true) (hp : parityOk f v = false) : checkFrame f v = .parity := by
  simp [checkFrame, hm, hp]

theorem checkFrame_eq_payload_iff {n : Nibble} :
    checkFrame f v = .payload n ↔ markersOk f v = true ∧ parityOk f v = true ∧ f.extractLsb' 3 4 = n := by
  rw [checkFrame]
  cases markersOk f v <;> cases parityOk f v <;> simp

/-- "A byte passes `CheckFrame` exactly when it is `FrameOf(n, variant)` for its own `n = f[6:3]`" (44_parityframe.md R142). -/
theorem checkFrame_eq_payload_iff_frameOf {n : Nibble} : checkFrame f v = .payload n ↔ frameOf n v = f :=
  ⟨frameOf_checkFrame, fun h => h ▸ checkFrame_frameOf n v⟩

end CheckFrame

/-- The markers of a frame byte in a data word are those that `CheckFrame` reads. -/
theorem markersRight_iff {v : Variant} {f : Word} : MarkersRight v f ↔ markersOk (f.setWidth 8) v = true := by
  cases v <;> simp [MarkersRight, markersOk]

/-- The parity table of R140 is what `CheckFrame` computes by folding. -/
theorem parityRight_iff {v : Variant} {f : Word} : ParityRight v f ↔ parityOk (f.setWidth 8) v = true := by
  cases v with
  | v0 => simp [ParityRight, parityOk_v0, and_assoc]
  | v1 => simp [ParityRight, parityOk_v1]

/-! ## FRAME_ENC -/

section FrameEnc

variable {v : Variant} {x : Word} {s : State}

theorem encodeCommand_frameEnc (v : Variant) (x : Word) :
    encodeCommand (.frameEnc v x) = ⟨0x58000000 ||| ((if v = .v1 then 1 else 0) <<< 7), x, 0⟩ := by
  rw [encodeCommand, controlWord_eq_or _ _ (by decide) (by decide) (by decide)]
  cases v <;> simp [Variant.bit]

theorem exec_frameEnc_wide (hx : 2 ^ 4 ≤ x.toNat) : exec (.frameEnc v x) s = raise .invalidValueRange 0 s := by
  simp [exec, execFrameEnc, fitsBits_eq_false.2 hx]

theorem exec_frameEnc (hx : x.toNat < 2 ^ 4) :
    exec (.frameEnc v x) s = finish ((frameOf (payloadOf x) v).setWidth 32) 0 s := by
  simp [exec, execFrameEnc, fitsBits_eq_true.2 hx]

/-- FRAME_ENC of a payload answers its frame and nothing else. -/
theorem frameEnc_answers_iff {n : Nibble} {f : Word} :
    AnswersAndKeeps (.frameEnc v (n.setWidth 32)) s .ok f 0 ↔ (frameOf n v).setWidth 32 = f := by
  have hanswer : AnswersAndKeeps (.frameEnc v (n.setWidth 32)) s .ok ((frameOf n v).setWidth 32) 0 := by
    have hn : payloadOf (n.setWidth 32) = n := by simp [payloadOf]
    simpa only [hn] using answersAndKeeps_of_finish (exec_frameEnc (v := v) (s := s) (nibbleWord_toNat_lt n))
  exact ⟨fun h => (answersAndKeeps_unique hanswer h).2.1, fun h => h ▸ hanswer⟩

end FrameEnc

/-! ## FRAME_DEC -/

section FrameDec

variable {v : Variant} {f : Frame} {s : State}

theorem encodeCommand_frameDec (v : Variant) (f : Word) :
    encodeCommand (.frameDec v f) = ⟨0x60000000 ||| ((if v = .v1 then 1 else 0) <<< 7), f, 0⟩ := by
  rw [encodeCommand, controlWord_eq_or _ _ (by decide) (by decide) (by decide)]
  cases v <;> simp [Variant.bit]

theorem exec_frameDec_wide {x : Word} (hx : 2 ^ 8 ≤ x.toNat) :
    exec (.frameDec v x) s = raise .invalidValueRange 0 s := by
  simp [exec, execFrameDec, fitsBits_eq_false.2 hx]

theorem exec_frameDec_structural (hf : checkFrame f v = .structural) :
    exec (.frameDec v (f.setWidth 32)) s = raise .structuralMismatch 0 s := by
  simp [exec, execFrameDec, fitsBits_eq_true.2 (frameWord_toNat_lt f), hf]

theorem exec_frameDec_parity (hf : checkFrame f v = .parity) :
    exec (.frameDec v (f.setWidth 32)) s = raise .parityMismatch 0 s := by
  simp [exec, execFrameDec, fitsBits_eq_true.2 (frameWord_toNat_lt f), hf]

theorem exec_frameDec_payload {n : Nibble} (hf : checkFrame f v = .payload n) :
    exec (.frameDec v (f.setWidth 32)) s = finish (n.setWidth 32) 0 s := by
  simp [exec, execFrameDec, fitsBits_eq_true.2 (frameWord_toNat_lt f), hf]

/-- FRAME_DEC of a byte answers a payload exactly when `CheckFrame` finds it. -/
theorem frameDec_answers_iff {n : Nibble} :
    AnswersAndKeeps (.frameDec v (f.setWidth 32)) s .ok (n.setWidth 32) 0 ↔ checkFrame f v = .payload n := by
  constructor
  · intro h
    cases hf : checkFrame f v with
    | structural => exact absurd h (not_ok_of_fails (fails_of_raise (exec_frameDec_structural hf)))
    | parity => exact absurd h (not_ok_of_fails (fails_of_raise (exec_frameDec_parity hf)))
    | payload n' =>
      have hword := (answersAndKeeps_unique (answersAndKeeps_of_finish (exec_frameDec_payload hf)) h).2.1
      rw [(setWidth_inj_of_le (by decide)).1 hword]
  · exact fun hf => answersAndKeeps_of_finish (exec_frameDec_payload hf)

end FrameDec

/-! ## The statements -/

/-- Settles O48: the frame built passes the check of its own markers and parity, and holds the payload in bits 6 to 3. -/
theorem frameEncBuildsTheFrame : Obligations.FrameEncBuildsTheFrame := by
  intro v x s
  refine ⟨encodeCommand_frameEnc v x, fun hx => fails_of_raise (exec_frameEnc_wide hx), fun hx =>
    ⟨_, answersAndKeeps_of_finish (exec_frameEnc hx), frameWord_toNat_lt _, ?_⟩⟩
  obtain ⟨hmarkers, hparity, hpayload⟩ := checkFrame_eq_payload_iff.1 (checkFrame_frameOf (payloadOf x) v)
  have hbyte : ((frameOf (payloadOf x) v).setWidth 32).setWidth 8 = frameOf (payloadOf x) v := by simp
  refine ⟨fun i hi => ?_, by rwa [markersRight_iff, hbyte], by rwa [parityRight_iff, hbyte]⟩
  have hbit := congrArg (fun n : Nibble => n.getLsbD i) hpayload
  simpa [payloadOf, hi, show 3 + i < 32 by omega] using hbit

/-- Settles O49, one outcome of `CheckFrame` after the other. -/
theorem frameDecChecksMarkersThenParity : Obligations.FrameDecChecksMarkersThenParity := by
  intro v f s
  refine ⟨encodeCommand_frameDec v f, fun hf => fails_of_raise (exec_frameDec_wide hf), fun hf => ?_⟩
  rw [← setWidth_setWidth_of_byte hf]
  generalize f.setWidth 8 = g
  rw [markersRight_iff, parityRight_iff, BitVec.setWidth_setWidth_of_le _ (by decide), BitVec.setWidth_eq,
    Bool.not_eq_true, Bool.not_eq_true]
  refine ⟨fun hm => fails_of_raise (exec_frameDec_structural (checkFrame_eq_structural hm)),
    fun hm hp => fails_of_raise (exec_frameDec_parity (checkFrame_eq_parity hm hp)), fun hm hp => ?_⟩
  have hpayload : BitVec.ofNat 32 ((g.setWidth 32).toNat / 8 % 16) = (g.extractLsb' 3 4).setWidth 32 := by
    apply BitVec.eq_of_toNat_eq
    simp only [BitVec.toNat_ofNat, BitVec.toNat_setWidth, BitVec.extractLsb'_toNat, Nat.shiftRight_eq_div_pow]
    omega
  rw [hpayload]
  exact frameDec_answers_iff.2 (checkFrame_eq_payload_iff.2 ⟨hm, hp, rfl⟩)

/-- Settles O50: a byte passes exactly when it is the frame of its payload, and a wider word is neither passed nor built. -/
theorem validFramesAreTheEncodedOnes : Obligations.ValidFramesAreTheEncodedOnes := by
  intro v f n s
  rw [frameEnc_answers_iff]
  rcases Nat.lt_or_ge f.toNat (2 ^ 8) with hbyte | hwide
  · rw [← setWidth_setWidth_of_byte hbyte, frameDec_answers_iff, checkFrame_eq_payload_iff_frameOf,
      setWidth_inj_of_le (by decide)]
  · refine iff_of_false (not_ok_of_fails (fails_of_raise (exec_frameDec_wide hwide))) ?_
    rintro rfl
    exact absurd (frameWord_toNat_lt _) (Nat.not_lt.2 hwide)

end Sys2Proof.Proofs
end

section
/-! SUPPORT. Bit errors on a valid frame (44_parityframe.md R148, R149). The checks are linear over the exclusive or, so what
they find on a valid frame with the bits of `e` flipped depends on `e` only, and not on the payload. -/

namespace Sys2Proof.Proofs

open Sys2Proof Sys2Proof.Machine

/-- The error pattern flips no marker bit (30_encoding.md R71, R72). -/
def markersKept (e : Frame) : Variant → Bool
  | .v0 => !e.getLsbD 7
  | .v1 => !e.getLsbD 7 && !e.getLsbD 2

/-- Right markers stay right exactly when none is flipped. -/
theorem markersOk_xor {f : Frame} {v : Variant} (hf : markersOk f v = true) (e : Frame) :
    markersOk (f ^^^ e) v = markersKept e v := by
  cases v with
  | v0 =>
    have h7 : f.getLsbD 7 = true := hf
    simp only [markersOk, markersKept, BitVec.getLsbD_xor, h7, Bool.true_xor]
  | v1 =>
    obtain ⟨h7, h2⟩ : f.getLsbD 7 = true ∧ f.getLsbD 2 = false := by simpa [markersOk] using hf
    simp only [markersOk, markersKept, BitVec.getLsbD_xor, h7, h2, Bool.true_xor, Bool.false_xor]

/-- Flipping bits on both sides of a parity equation that holds leaves the equation between the flips. -/
theorem xor_beq_xor_of_eq {a b : Bool} (h : a = b) (c d : Bool) : ((a ^^ c) == (b ^^ d)) = (c == d) := by
  subst h
  revert a c d
  decide

/-- In a sum of two flipped bits the bits and the flips can be added apart. -/
theorem xor_flips : ∀ a b e e' : Bool, ((a ^^ e) ^^ (b ^^ e')) = ((a ^^ b) ^^ (e ^^ e')) := by decide

/-- The parity equations are linear: on a right parity they find what they find on the error pattern alone. -/
theorem parityOk_xor {f : Frame} {v : Variant} (hf : parityOk f v = true) (e : Frame) :
    parityOk (f ^^^ e) v = parityOk e v := by
  cases v with
  | v0 =>
    rw [parityOk_v0, Bool.and_eq_true, Bool.and_eq_true, beq_iff_eq, beq_iff_eq, beq_iff_eq] at hf
    obtain ⟨⟨h2, h1⟩, h0⟩ := hf
    simp only [parityOk_v0, BitVec.getLsbD_xor, xor_flips]
    rw [xor_beq_xor_of_eq h2, xor_beq_xor_of_eq h1, xor_beq_xor_of_eq h0]
  | v1 =>
    rw [parityOk_v1, Bool.and_eq_true, beq_iff_eq, beq_iff_eq] at hf
    obtain ⟨h1, h0⟩ := hf
    simp only [parityOk_v1, BitVec.getLsbD_xor, xor_flips]
    rw [xor_beq_xor_of_eq h1, xor_beq_xor_of_eq h0]

section Errors

variable (n : Nibble) (v : Variant) (e : Frame)

theorem markersOk_frameOf_xor : markersOk (frameOf n v ^^^ e) v = markersKept e v :=
  markersOk_xor (checkFrame_eq_payload_iff.1 (checkFrame_frameOf n v)).1 e

theorem parityOk_frameOf_xor : parityOk (frameOf n v ^^^ e) v = parityOk e v :=
  parityOk_xor (checkFrame_eq_payload_iff.1 (checkFrame_frameOf n v)).2.1 e

end Errors

/-! ## One flipped bit -/

/-- The table of R148, first part: the positions of the markers. -/
theorem markersKept_singleBit : ∀ (v : Variant), ∀ b < 8,
    markersKept (1#8 <<< b) v = !decide (b = 7 ∨ (b = 2 ∧ v = .v1)) := by
  intro v
  cases v <;> decide

/-- The table of R148, second part: every bit but a marker feeds exactly one parity bit or is one. -/
theorem parityOk_singleBit : ∀ (v : Variant), ∀ b < 8, parityOk (1#8 <<< b) v = false := by
  intro v
  cases v <;> decide

/-- Settles O51, by the table of R148 over the flipped bits alone. -/
theorem singleBitFlipsAreDetected : Obligations.SingleBitFlipsAreDetected := by
  intro v n b s hb
  have hmarkers := (markersOk_frameOf_xor n v (1#8 <<< b)).trans (markersKept_singleBit v b hb)
  have hparity := (parityOk_frameOf_xor n v (1#8 <<< b)).trans (parityOk_singleBit v b hb)
  by_cases hmarker : b = 7 ∨ (b = 2 ∧ v = .v1)
  · rw [if_pos hmarker]
    exact fails_of_raise (exec_frameDec_structural (checkFrame_eq_structural (by simpa [hmarker] using hmarkers)))
  · rw [if_neg hmarker]
    exact fails_of_raise (exec_frameDec_parity (checkFrame_eq_parity (by simpa [hmarker] using hmarkers) hparity))

/-! ## Two flipped bits -/

/-- The checks let a flipped frame pass, with another payload, exactly when they do not see the error pattern. -/
theorem exists_payload_frameOf_xor {e : Frame} (he : e ≠ 0) (n : Nibble) (v : Variant) :
    (∃ n', n' ≠ n ∧ checkFrame (frameOf n v ^^^ e) v = .payload n') ↔ markersKept e v = true ∧ parityOk e v = true := by
  simp only [checkFrame_eq_payload_iff, markersOk_frameOf_xor, parityOk_frameOf_xor]
  constructor
  · rintro ⟨n', -, hm, hp, -⟩
    exact ⟨hm, hp⟩
  · rintro ⟨hm, hp⟩
    refine ⟨_, fun hsame => he ?_, hm, hp, rfl⟩
    have hvalid : checkFrame (frameOf n v ^^^ e) v = .payload n := by
      rw [checkFrame_eq_payload_iff, markersOk_frameOf_xor, parityOk_frameOf_xor]
      exact ⟨hm, hp, hsame⟩
    exact (BitVec.xor_right_inj _).1 ((frameOf_checkFrame hvalid).symm.trans BitVec.xor_zero.symm)

theorem doubleBit_ne_zero : ∀ p < 8, ∀ q < p, 1#8 <<< p ^^^ 1#8 <<< q ≠ 0 := by decide

/-- The pairs of bits that the checks do not see are those of R149. -/
theorem unseen_doubleBit_iff : ∀ (v : Variant), ∀ p < 8, ∀ q < p,
    (markersKept (1#8 <<< p ^^^ 1#8 <<< q) v = true ∧ parityOk (1#8 <<< p ^^^ 1#8 <<< q) v = true) ↔
      (p, q) ∈ undetectedPairs v := by
  intro v
  cases v <;> decide

/-- Settles O52: whether the frame passes depends on the two flipped bits alone, and these are the pairs of R149. -/
theorem undetectedDoubleFlips : Obligations.UndetectedDoubleFlips := by
  intro n s v p q hq hp
  simp only [frameDec_answers_iff, BitVec.xor_assoc]
  rw [exists_payload_frameOf_xor (doubleBit_ne_zero p hp q hq), unseen_doubleBit_iff v p hp q hq]

end Sys2Proof.Proofs
end

section
/-! SUPPORT. Three frames in one word (44_parityframe.md R146, R147): the layout of R73, the loop of VAL12_DEC, and the value
joined from its nibbles. -/

namespace Sys2Proof.Proofs

open Sys2Proof Sys2Proof.Machine

/-! ## The layouts -/

/-- Nibble `i` of a 12-bit value, the most significant first (30_encoding.md R73). -/
theorem value12Nibble_eq (x : Word) {i : Nat} (hi : i < 3) :
    value12Nibble x i = BitVec.ofNat 4 (x.toNat / 16 ^ (2 - i)) := by
  rw [value12Nibble, BitVec.extractLsb', Nat.shiftRight_eq_div_pow, show 8 - 4 * i = 4 * (2 - i) by omega, pow_mul]
  rfl

/-- A 12-bit value is its three nibbles joined (30_encoding.md R73). -/
theorem value12Nibble_join {x : Word} (hx : x.toNat < 2 ^ 12) :
    (value12Nibble x 0).toNat * 256 + (value12Nibble x 1).toNat * 16 + (value12Nibble x 2).toNat = x.toNat := by
  rw [value12Nibble_eq x (by decide), value12Nibble_eq x (by decide), value12Nibble_eq x (by decide)]
  simp only [BitVec.toNat_ofNat]
  omega

/-- Frame `i` of a 24-bit value, the most significant first (30_encoding.md R73). -/
theorem packedFrame_eq (x : Word) {i : Nat} (hi : i < 3) :
    packedFrame x i = BitVec.ofNat 8 (x.toNat / 256 ^ (2 - i)) := by
  rw [packedFrame, BitVec.extractLsb', Nat.shiftRight_eq_div_pow, show 16 - 8 * i = 8 * (2 - i) by omega, pow_mul]
  rfl

theorem packFrames_toNat (f0 f1 f2 : Frame) :
    (packFrames f0 f1 f2).toNat = f0.toNat * 65536 + f1.toNat * 256 + f2.toNat := by
  simp only [packFrames, toNat_append_eq_add, BitVec.ofNat_eq_ofNat, BitVec.toNat_ofNat]
  omega

/-- The three frames of a word are the three that were packed into it (30_encoding.md R73). -/
theorem packedFrame_packFrames (f0 f1 f2 : Frame) : packedFrame (packFrames f0 f1 f2) 0 = f0 ∧
    packedFrame (packFrames f0 f1 f2) 1 = f1 ∧ packedFrame (packFrames f0 f1 f2) 2 = f2 := by
  refine ⟨?_, ?_, ?_⟩ <;>
    (rw [packedFrame_eq _ (by decide)]
     apply BitVec.eq_of_toNat_eq
     rw [BitVec.toNat_ofNat, packFrames_toNat]
     omega)

/-! ## VAL12_ENC -/

section Val12Enc

variable {x : Word} {s : State}

theorem encodeCommand_val12Enc (x : Word) : encodeCommand (.val12Enc x) = ⟨0x68000000, x, 0⟩ := by
  have hcw : controlWord 0x0D 0 0 0 false false = 0x68000000 := by decide
  rw [encodeCommand, hcw]

theorem exec_val12Enc_wide (hx : 2 ^ 12 ≤ x.toNat) : exec (.val12Enc x) s = raise .invalidValueRange 0 s := by
  simp [exec, execVal12Enc, fitsBits_eq_false.2 hx]

theorem exec_val12Enc (hx : x.toNat < 2 ^ 12) : exec (.val12Enc x) s =
    finish (packFrames (frameOf (value12Nibble x 0) .v0) (frameOf (value12Nibble x 1) .v0)
      (frameOf (value12Nibble x 2) .v0)) 0 s := by
  simp [exec, execVal12Enc, fitsBits_eq_true.2 hx]

end Val12Enc

/-- Settles O53: the nibbles and the packed word as numbers. -/
theorem val12EncPacksThreeFrames : Obligations.Val12EncPacksThreeFrames := by
  intro x s
  refine ⟨encodeCommand_val12Enc x, fun hx => fails_of_raise (exec_val12Enc_wide hx), fun hx =>
    ⟨_, answersAndKeeps_of_finish (exec_val12Enc hx), ?_⟩⟩
  simp [packFrames_toNat, value12Nibble_eq]

/-! ## VAL12_DEC -/

section Val12Dec

variable {x : Word} {s : State}

theorem encodeCommand_val12Dec (x : Word) : encodeCommand (.val12Dec x) = ⟨0x70000000, x, 0⟩ := by
  have hcw : controlWord 0x0E 0 0 0 false false = 0x70000000 := by decide
  rw [encodeCommand, hcw]

theorem exec_val12Dec_wide (hx : 2 ^ 24 ≤ x.toNat) : exec (.val12Dec x) s = raise .invalidValueRange 0 s := by
  simp [exec, execVal12Dec, fitsBits_eq_false.2 hx]

/-- The frames of the word from frame `i` on, in the order of the loop (44_parityframe.md R147). -/
def framesFrom (x : Word) (i : Nat) : List Frame := (List.range' i (3 - i)).map (packedFrame x)

theorem framesFrom_eq_cons {i : Nat} (hi : i < 3) : framesFrom x i = packedFrame x i :: framesFrom x (i + 1) := by
  rw [framesFrom, show 3 - i = (3 - (i + 1)) + 1 by omega, List.range'_succ, List.map_cons, framesFrom]

theorem exec_val12Dec (hx : x.toNat < 2 ^ 24) : exec (.val12Dec x) s = joinFrames s (framesFrom x 0) 0 0 := by
  simp [exec, execVal12Dec, fitsBits_eq_true.2 hx, framesFrom, List.range']

/-- One turn of the loop over a frame that passes. -/
theorem joinFrames_payload {i : Nat} {n : Nibble} (hi : i < 3) (hf : checkFrame (packedFrame x i) .v0 = .payload n)
    (v : Word) : joinFrames s (framesFrom x i) i v =
      joinFrames s (framesFrom x (i + 1)) (i + 1) ((v <<< 4) ||| n.setWidth 32) := by
  simp only [framesFrom_eq_cons hi, joinFrames, hf]

/-- When all frames before frame `i` pass, the loop comes to frame `i`. -/
theorem exec_val12Dec_reaches (hx : x.toNat < 2 ^ 24) : ∀ {i : Nat}, i < 3 →
    (∀ j < i, ∃ n, checkFrame (packedFrame x j) .v0 = .payload n) →
      ∃ v, exec (.val12Dec x) s = joinFrames s (framesFrom x i) i v
  | 0, _, _ => ⟨0, exec_val12Dec hx⟩
  | i + 1, hi, hpass => by
    obtain ⟨v, hv⟩ := exec_val12Dec_reaches hx (Nat.lt_of_succ_lt hi) fun j hj => hpass j (Nat.lt_succ_of_lt hj)
    obtain ⟨n, hn⟩ := hpass i (Nat.lt_succ_self i)
    exact ⟨_, hv.trans (joinFrames_payload (Nat.lt_of_succ_lt hi) hn v)⟩

theorem exec_val12Dec_structural {i : Nat} (hx : x.toNat < 2 ^ 24) (hi : i < 3)
    (hpass : ∀ j < i, ∃ n, checkFrame (packedFrame x j) .v0 = .payload n)
    (hf : checkFrame (packedFrame x i) .v0 = .structural) :
    exec (.val12Dec x) s = raise .structuralMismatch (toWord i) s := by
  obtain ⟨v, hv⟩ := exec_val12Dec_reaches (s := s) hx hi hpass
  simp only [hv, framesFrom_eq_cons hi, joinFrames, hf]

theorem exec_val12Dec_parity {i : Nat} (hx : x.toNat < 2 ^ 24) (hi : i < 3)
    (hpass : ∀ j < i, ∃ n, checkFrame (packedFrame x j) .v0 = .payload n)
    (hf : checkFrame (packedFrame x i) .v0 = .parity) :
    exec (.val12Dec x) s = raise .parityMismatch (toWord i) s := by
  obtain ⟨v, hv⟩ := exec_val12Dec_reaches (s := s) hx hi hpass
  simp only [hv, framesFrom_eq_cons hi, joinFrames, hf]

/-- Joining one more payload, as a number: nothing is lost while the value joined so far leaves four bits free. -/
theorem toWord_join {m : Nat} (hm : m < 2 ^ 28) (n : Nibble) :
    (toWord m <<< 4) ||| n.setWidth 32 = toWord (m * 16 + n.toNat) := by
  have hn : (n.setWidth 32).toNat = n.toNat := BitVec.toNat_setWidth_of_le (by decide)
  apply BitVec.eq_of_toNat_eq
  rw [BitVec.toNat_or, BitVec.toNat_shiftLeft, toWord_toNat (by omega), toWord_toNat (by omega), hn,
    Nat.mod_eq_of_lt (by rw [Nat.shiftLeft_eq]; omega), ← Nat.shiftLeft_add_eq_or_of_lt n.isLt, Nat.shiftLeft_eq]

/-- Three frames that pass are joined, the first payload the most significant (44_parityframe.md R147). -/
theorem exec_val12Dec_payloads {n0 n1 n2 : Nibble} (hx : x.toNat < 2 ^ 24)
    (h0 : checkFrame (packedFrame x 0) .v0 = .payload n0) (h1 : checkFrame (packedFrame x 1) .v0 = .payload n1)
    (h2 : checkFrame (packedFrame x 2) .v0 = .payload n2) :
    exec (.val12Dec x) s = finish (toWord (n0.toNat * 256 + n1.toNat * 16 + n2.toNat)) 0 s := by
  have hvalue : ((0 * 16 + n0.toNat) * 16 + n1.toNat) * 16 + n2.toNat = n0.toNat * 256 + n1.toNat * 16 + n2.toNat := by
    omega
  calc exec (.val12Dec x) s
    _ = joinFrames s (framesFrom x 0) 0 (toWord 0) := exec_val12Dec hx
    _ = joinFrames s (framesFrom x 1) 1 (toWord (0 * 16 + n0.toNat)) := by
      rw [joinFrames_payload (by decide) h0, toWord_join (by decide)]
    _ = joinFrames s (framesFrom x 2) 2 (toWord ((0 * 16 + n0.toNat) * 16 + n1.toNat)) := by
      rw [joinFrames_payload (by decide) h1, toWord_join (by omega)]
    _ = joinFrames s (framesFrom x 3) 3 (toWord (((0 * 16 + n0.toNat) * 16 + n1.toNat) * 16 + n2.toNat)) := by
      rw [joinFrames_payload (by decide) h2, toWord_join (by omega)]
    _ = finish (toWord (n0.toNat * 256 + n1.toNat * 16 + n2.toNat)) 0 s := by
      rw [hvalue]; rfl

end Val12Dec

/-- Settles O54: the loop comes to the first frame that fails, or joins all three payloads. -/
theorem val12DecFailsOnTheFirstBadFrame : Obligations.Val12DecFailsOnTheFirstBadFrame := by
  intro x s
  refine ⟨encodeCommand_val12Dec x, fun hx => fails_of_raise (exec_val12Dec_wide hx), fun hx =>
    ⟨fun i hi hpass => ?_, fun n0 n1 n2 h0 h1 h2 => ?_⟩⟩
  · have hbefore : ∀ j < i, ∃ n, checkFrame (packedFrame x j) .v0 = .payload n := fun j hj => by
      rw [packedFrame_eq x (hj.trans hi)]
      exact hpass j hj
    rw [← packedFrame_eq x hi]
    exact ⟨fun hf => fails_of_raise (exec_val12Dec_structural hx hi hbefore hf),
      fun hf => fails_of_raise (exec_val12Dec_parity hx hi hbefore hf)⟩
  · refine answersAndKeeps_of_finish (exec_val12Dec_payloads hx ?_ ?_ ?_)
    · rwa [packedFrame_eq x (by decide)]
    · rwa [packedFrame_eq x (by decide)]
    · rwa [packedFrame_eq x (by decide), Nat.sub_self, pow_zero, Nat.div_one]

/-- Settles O55: the frames packed are valid, and their payloads are the nibbles of the value. -/
theorem val12RoundTrip : Obligations.Val12RoundTrip := by
  intro x s s' hx
  refine ⟨_, answersAndKeeps_of_finish (exec_val12Enc hx), ?_⟩
  obtain ⟨h0, h1, h2⟩ := packedFrame_packFrames (frameOf (value12Nibble x 0) .v0) (frameOf (value12Nibble x 1) .v0)
    (frameOf (value12Nibble x 2) .v0)
  have hlow : ∀ f0 f1 f2 : Frame, (packFrames f0 f1 f2).toNat < 2 ^ 24 := fun f0 f1 f2 => by
    rw [packFrames_toNat]
    omega
  have hexec := exec_val12Dec_payloads (s := s') (hlow _ _ _) (h0.symm ▸ checkFrame_frameOf ..)
    (h1.symm ▸ checkFrame_frameOf ..) (h2.symm ▸ checkFrame_frameOf ..)
  rw [value12Nibble_join hx, toWord, BitVec.ofNat_toNat, BitVec.setWidth_eq] at hexec
  exact answersAndKeeps_of_finish hexec

end Sys2Proof.Proofs
end

section
/-! SUPPORT. Errors and idling (60_exceptions.md): what an answered error says of the next state and of the command (R161,
R163), and the step after the host's last move (R173). -/

namespace Sys2Proof.Proofs

open Sys2Proof Sys2Proof.Machine

/-- An error response is one of the command's row in the table of R161, with `R0` 0, and all that the command adds to the state
(60_exceptions.md R161, R163). -/
theorem exec_error_inv {i : Instr} {s t : State} {e : ErrorStatus} {r0 r1 : Word} (h : exec i s = .next t)
    (hr : t.responses = s.responses ++ [{ st := .error e, r0 := r0, r1 := r1 }]) :
    t = respond (.error e) 0 r1 s ∧ r0 = 0 ∧ mayAnswer i e = true := by
  obtain ⟨st, q0, q1, u, rfl, hresponses, -, -, -, herror⟩ := exec_next_cases h
  rw [respond_responses, hresponses, List.append_right_inj, List.singleton_inj] at hr
  cases hr
  obtain ⟨rfl, rfl, hlisted⟩ := herror e rfl
  exact ⟨rfl, rfl, hlisted⟩

/-- Settles O16: the next state is the old one with the response added (`exec_error_inv`). -/
theorem failingCommandChangesNothing : Obligations.FailingCommandChangesNothing := by
  intro i s t e r0 r1 h hr
  obtain ⟨rfl, hzero, -⟩ := exec_error_inv h hr
  exact ⟨hzero, respond_untouched ..⟩

/-- Settles O17, by `exec_error_inv`. -/
theorem statusesAreThoseOfTheTable : Obligations.StatusesAreThoseOfTheTable := by
  intro i s t e r0 r1 h hr
  obtain ⟨-, -, hlisted⟩ := exec_error_inv h hr
  exact hlisted

/-- Settles O10: past the end of the list there is no next move. -/
theorem blockHoldsItsStateAfterTheLastMove : Obligations.BlockHoldsItsStateAfterTheLastMove := by
  intro s hended
  have hidle : nextMove s = none := List.getElem?_eq_none hended
  exact step_of_idle hidle

end Sys2Proof.Proofs
end
